-- ==== Sys2Proof/Word.lean ====
section
/-! DEFINITION. The word types of the minirvEMU CORE (00_scope.md R2, R3). -/

namespace Sys2Proof

/-- A 32-bit word: a register, an address, a memory word, a pixel cell (R2; XLEN = 32 is the
spec's decision D1, log 8). `+` on it is addition modulo 2^32 (R3, D2, log 9). -/
abbrev Word := BitVec 32

/-- A byte: 8 bits (00_scope.md section 7). -/
abbrev Byte := BitVec 8

/-- A register address: a 5-bit field (30_encoding.md R61), so an address outside 0 to 31
cannot be written down (10_state.md R13, 93_implementation_defined.md U2). -/
abbrev RegIdx := BitVec 5

end Sys2Proof
end

