-- ==== Sys2Proof/Config.lean ====
section
/-! DEFINITION. What one implementation of the CORE fixes: the capacity of general memory
(00_scope.md R2, decision D5). It has no free value: the spec leaves no result undefined. -/

namespace Sys2Proof

/-- The one OPEN parameter of R2, `MEM_ADDR_BITS` = k with 2 <= k <= 32, held as k - 2 so that
every value of the type is a legal one. A state carries it as data (log 4), so a statement about
every state is a statement for every capacity. -/
structure Config where
  /-- k - 2 -/
  extraBits : Fin 31
deriving DecidableEq, Repr

/-- k, the number of address bits of general memory (R2). -/
def Config.memAddrBits (c : Config) : Nat := 2 + c.extraBits.val

/-- `MEM_BYTES` = 2^k (R2). -/
def Config.memBytes (c : Config) : Nat := 2 ^ c.memAddrBits

/-- `MEM_WORDS` = 2^(k-2) (R2). -/
def Config.memWords (c : Config) : Nat := 2 ^ c.extraBits.val

end Sys2Proof
end

