-- ==== Sys2Proof/Syntax.lean ====
section
/-! DEFINITION. The abstract syntax: the six categories, the instructions (one constructor for
each row of opcode_table.json) and the shape of a row of that table. -/

namespace Sys2Proof

/-- The closed set of six operation categories (30_encoding.md R63). -/
inductive Category where
  | opimm | op | load | store | lui | jalr
deriving DecidableEq, Repr

/-- One instruction, as the decoder hands it on: the register addresses the later units use and
the 32-bit immediate the immediate decoder produced (30_encoding.md R66 to R69). Bits that select
nothing (R70) are not kept (log 21). -/
inductive Instr where
  /-- OPIMM, Immediate-arithmetic (41_arith.md R110). -/
  | opimm (rd rs1 : RegIdx) (imm : Word)
  /-- OP, Register-arithmetic (41_arith.md R111); it has no immediate (30_encoding.md R69). -/
  | op (rd rs1 rs2 : RegIdx)
  /-- LUI, LoadUpperImmediate (43_lui_jalr.md R140). -/
  | lui (rd : RegIdx) (imm : Word)
  /-- JALR, JumpAndLinkRegister (43_lui_jalr.md R141). -/
  | jalr (rd rs1 : RegIdx) (imm : Word)
  /-- LW, word load (42_load_store.md R120). -/
  | lw (rd rs1 : RegIdx) (imm : Word)
  /-- LBU, byte load, zero-extended (42_load_store.md R121). -/
  | lbu (rd rs1 : RegIdx) (imm : Word)
  /-- LDX.0, load with the unsupported selector 0 (42_load_store.md R122). -/
  | ldx0 (rd rs1 : RegIdx) (imm : Word)
  /-- LDX.1, load with the unsupported selector 1 (42_load_store.md R122). -/
  | ldx1 (rd rs1 : RegIdx) (imm : Word)
  /-- LDX.3, load with the unsupported selector 3 (42_load_store.md R122). -/
  | ldx3 (rd rs1 : RegIdx) (imm : Word)
  /-- LDX.5, load with the unsupported selector 5 (42_load_store.md R122). -/
  | ldx5 (rd rs1 : RegIdx) (imm : Word)
  /-- LDX.6, load with the unsupported selector 6 (42_load_store.md R122). -/
  | ldx6 (rd rs1 : RegIdx) (imm : Word)
  /-- LDX.7, load with the unsupported selector 7 (42_load_store.md R122). -/
  | ldx7 (rd rs1 : RegIdx) (imm : Word)
  /-- SB, byte store (42_load_store.md R124). -/
  | sb (rs1 rs2 : RegIdx) (imm : Word)
  /-- SW, word store (42_load_store.md R125, R126). -/
  | sw (rs1 rs2 : RegIdx) (imm : Word)
  /-- STX.1, store with the unsupported selector 1 (42_load_store.md R127). -/
  | stx1 (rs1 rs2 : RegIdx) (imm : Word)
  /-- STX.3, store with the unsupported selector 3 (42_load_store.md R127). -/
  | stx3 (rs1 rs2 : RegIdx) (imm : Word)
  /-- STX.4, store with the unsupported selector 4 (42_load_store.md R127). -/
  | stx4 (rs1 rs2 : RegIdx) (imm : Word)
  /-- STX.5, store with the unsupported selector 5 (42_load_store.md R127). -/
  | stx5 (rs1 rs2 : RegIdx) (imm : Word)
  /-- STX.6, store with the unsupported selector 6 (42_load_store.md R127). -/
  | stx6 (rs1 rs2 : RegIdx) (imm : Word)
  /-- STX.7, store with the unsupported selector 7 (42_load_store.md R127). -/
  | stx7 (rs1 rs2 : RegIdx) (imm : Word)
  /-- UNDEF.00001, a word of the unrecognised group 0b00001 (44_decode_failure.md R150). -/
  | undef00001 (rd rs1 : RegIdx) (imm : Word)
  /-- UNDEF.00010, a word of the unrecognised group 0b00010 (44_decode_failure.md R150). -/
  | undef00010 (rd rs1 : RegIdx) (imm : Word)
  /-- UNDEF.00011, a word of the unrecognised group 0b00011 (44_decode_failure.md R150). -/
  | undef00011 (rd rs1 : RegIdx) (imm : Word)
  /-- UNDEF.00101, a word of the unrecognised group 0b00101 (44_decode_failure.md R150). -/
  | undef00101 (rd rs1 : RegIdx) (imm : Word)
  /-- UNDEF.00110, a word of the unrecognised group 0b00110 (44_decode_failure.md R150). -/
  | undef00110 (rd rs1 : RegIdx) (imm : Word)
  /-- UNDEF.00111, a word of the unrecognised group 0b00111 (44_decode_failure.md R150). -/
  | undef00111 (rd rs1 : RegIdx) (imm : Word)
  /-- UNDEF.01001, a word of the unrecognised group 0b01001 (44_decode_failure.md R150). -/
  | undef01001 (rd rs1 : RegIdx) (imm : Word)
  /-- UNDEF.01010, a word of the unrecognised group 0b01010 (44_decode_failure.md R150). -/
  | undef01010 (rd rs1 : RegIdx) (imm : Word)
  /-- UNDEF.01011, a word of the unrecognised group 0b01011 (44_decode_failure.md R150). -/
  | undef01011 (rd rs1 : RegIdx) (imm : Word)
  /-- UNDEF.01110, a word of the unrecognised group 0b01110 (44_decode_failure.md R150). -/
  | undef01110 (rd rs1 : RegIdx) (imm : Word)
  /-- UNDEF.01111, a word of the unrecognised group 0b01111 (44_decode_failure.md R150). -/
  | undef01111 (rd rs1 : RegIdx) (imm : Word)
  /-- UNDEF.10000, a word of the unrecognised group 0b10000 (44_decode_failure.md R150). -/
  | undef10000 (rd rs1 : RegIdx) (imm : Word)
  /-- UNDEF.10001, a word of the unrecognised group 0b10001 (44_decode_failure.md R150). -/
  | undef10001 (rd rs1 : RegIdx) (imm : Word)
  /-- UNDEF.10010, a word of the unrecognised group 0b10010 (44_decode_failure.md R150). -/
  | undef10010 (rd rs1 : RegIdx) (imm : Word)
  /-- UNDEF.10011, a word of the unrecognised group 0b10011 (44_decode_failure.md R150). -/
  | undef10011 (rd rs1 : RegIdx) (imm : Word)
  /-- UNDEF.10100, a word of the unrecognised group 0b10100 (44_decode_failure.md R150). -/
  | undef10100 (rd rs1 : RegIdx) (imm : Word)
  /-- UNDEF.10101, a word of the unrecognised group 0b10101 (44_decode_failure.md R150). -/
  | undef10101 (rd rs1 : RegIdx) (imm : Word)
  /-- UNDEF.10110, a word of the unrecognised group 0b10110 (44_decode_failure.md R150). -/
  | undef10110 (rd rs1 : RegIdx) (imm : Word)
  /-- UNDEF.10111, a word of the unrecognised group 0b10111 (44_decode_failure.md R150). -/
  | undef10111 (rd rs1 : RegIdx) (imm : Word)
  /-- UNDEF.11000, a word of the unrecognised group 0b11000 (44_decode_failure.md R150). -/
  | undef11000 (rd rs1 : RegIdx) (imm : Word)
  /-- UNDEF.11010, a word of the unrecognised group 0b11010 (44_decode_failure.md R150). -/
  | undef11010 (rd rs1 : RegIdx) (imm : Word)
  /-- UNDEF.11011, a word of the unrecognised group 0b11011 (44_decode_failure.md R150). -/
  | undef11011 (rd rs1 : RegIdx) (imm : Word)
  /-- UNDEF.11100, a word of the unrecognised group 0b11100 (44_decode_failure.md R150). -/
  | undef11100 (rd rs1 : RegIdx) (imm : Word)
  /-- UNDEF.11101, a word of the unrecognised group 0b11101 (44_decode_failure.md R150). -/
  | undef11101 (rd rs1 : RegIdx) (imm : Word)
  /-- UNDEF.11110, a word of the unrecognised group 0b11110 (44_decode_failure.md R150). -/
  | undef11110 (rd rs1 : RegIdx) (imm : Word)
  /-- UNDEF.11111, a word of the unrecognised group 0b11111 (44_decode_failure.md R150). -/
  | undef11111 (rd rs1 : RegIdx) (imm : Word)
deriving DecidableEq, Repr

/-- Why a byte list holds no instruction. It is a result of the decoder on bytes only: the fetch
always hands over a whole word (20_memory.md R37). -/
inductive DecodeReject where
  /-- fewer than four bytes (30_encoding.md R60: one length of 32 bits) -/
  | truncated
deriving DecidableEq, Repr

/-- One row of the opcode table: a word `w` belongs to it when `w &&& mask = pattern`
(30_encoding.md R71). -/
structure OpcodeRow where
  /-- the row's name in opcode_table.json -/
  mnemonic : String
  mask : Word
  pattern : Word
deriving DecidableEq, Repr

end Sys2Proof
end

