-- ==== Sys2Proof/WellFormed.lean ====
section
/-! DEFINITION. Which instructions have an encoding: the immediate is one the immediate decoder
can produce. Register addresses need no check, their type is the 5-bit field. -/

namespace Sys2Proof

/-- The 32-bit immediate is the sign extension of its low 12 bits: the range -2048 to 2047 of the
I and S forms (30_encoding.md R66, R67). -/
def fits12 (imm : Word) : Bool := (imm.extractLsb' 0 12).signExtend 32 == imm

/-- The low 12 bits of the immediate are zero: the U form (30_encoding.md R68). -/
def fitsUpper (imm : Word) : Bool := imm.extractLsb' 0 12 == 0

/-- An instruction is well-formed when its immediate fits the immediate form of its category. -/
def Instr.wf : Instr → Bool
  | .opimm _ _ imm => fits12 imm
  | .op _ _ _ => true
  | .lui _ imm => fitsUpper imm
  | .jalr _ _ imm => fits12 imm
  | .lw _ _ imm => fits12 imm
  | .lbu _ _ imm => fits12 imm
  | .ldx0 _ _ imm => fits12 imm
  | .ldx1 _ _ imm => fits12 imm
  | .ldx3 _ _ imm => fits12 imm
  | .ldx5 _ _ imm => fits12 imm
  | .ldx6 _ _ imm => fits12 imm
  | .ldx7 _ _ imm => fits12 imm
  | .sb _ _ imm => fits12 imm
  | .sw _ _ imm => fits12 imm
  | .stx1 _ _ imm => fits12 imm
  | .stx3 _ _ imm => fits12 imm
  | .stx4 _ _ imm => fits12 imm
  | .stx5 _ _ imm => fits12 imm
  | .stx6 _ _ imm => fits12 imm
  | .stx7 _ _ imm => fits12 imm
  | .undef00001 _ _ imm => fits12 imm
  | .undef00010 _ _ imm => fits12 imm
  | .undef00011 _ _ imm => fits12 imm
  | .undef00101 _ _ imm => fits12 imm
  | .undef00110 _ _ imm => fits12 imm
  | .undef00111 _ _ imm => fits12 imm
  | .undef01001 _ _ imm => fits12 imm
  | .undef01010 _ _ imm => fits12 imm
  | .undef01011 _ _ imm => fits12 imm
  | .undef01110 _ _ imm => fits12 imm
  | .undef01111 _ _ imm => fits12 imm
  | .undef10000 _ _ imm => fits12 imm
  | .undef10001 _ _ imm => fits12 imm
  | .undef10010 _ _ imm => fits12 imm
  | .undef10011 _ _ imm => fits12 imm
  | .undef10100 _ _ imm => fits12 imm
  | .undef10101 _ _ imm => fits12 imm
  | .undef10110 _ _ imm => fits12 imm
  | .undef10111 _ _ imm => fits12 imm
  | .undef11000 _ _ imm => fits12 imm
  | .undef11010 _ _ imm => fits12 imm
  | .undef11011 _ _ imm => fits12 imm
  | .undef11100 _ _ imm => fits12 imm
  | .undef11101 _ _ imm => fits12 imm
  | .undef11110 _ _ imm => fits12 imm
  | .undef11111 _ _ imm => fits12 imm

end Sys2Proof
end

