-- ==== Sys2Proof/Decode.lean ====
section
/-! DEFINITION. The decoder, total on every 32-bit word and rejecting a short byte list by name,
then the encoder, both written from the encoding tables of 30_encoding.md. -/

namespace Sys2Proof

/-! ### Bytes and words -/

/-- The word whose byte lanes, from the lowest address up, are `b0` to `b3`: little-endian
(20_memory.md R36, decision D3, log 11). -/
def wordOfBytes (b0 b1 b2 b3 : Byte) : Word := b3 ++ b2 ++ b1 ++ b0

/-- Byte `n` (0 to 3) of a word, the lane at bits 8n+7 : 8n (20_memory.md R36, D3, log 11). -/
def byteOfWord (v : Word) (n : Nat) : Byte := v.extractLsb' (8 * n) 8

/-- `sext_12` of 00_scope.md R3. -/
def sext12 (v : BitVec 12) : Word := v.signExtend 32

/-! ### Fields (30_encoding.md R61) -/

/-- source1, bits 19:15 -/
def fieldRs1 (w : Word) : RegIdx := w.extractLsb' 15 5
/-- source2, bits 24:20 -/
def fieldRs2 (w : Word) : RegIdx := w.extractLsb' 20 5
/-- destination, bits 11:7 -/
def fieldRd (w : Word) : RegIdx := w.extractLsb' 7 5
/-- group selector, bits 6:2 -/
def fieldGrp (w : Word) : BitVec 5 := w.extractLsb' 2 5
/-- raw function selector, bits 14:12 -/
def fieldF3 (w : Word) : BitVec 3 := w.extractLsb' 12 3

/-! ### Immediates -/

/-- The I immediate: the word shifted right by 20, arithmetically (30_encoding.md R66). -/
def immI (w : Word) : Word := sext12 (w.extractLsb' 20 12)

/-- The S immediate: `sext_12({w[31:25], w[11:7]})` (30_encoding.md R67). -/
def immS (w : Word) : Word := sext12 (w.extractLsb' 25 7 ++ w.extractLsb' 7 5)

/-- The U immediate: bits 31:12 kept, the low 12 bits zero (30_encoding.md R68). -/
def immU (w : Word) : Word := w.extractLsb' 12 20 ++ 0#12

/-! ### The decoder -/

/-- A word of the Load group, by selector (30_encoding.md R71; 42_load_store.md R120 to R122). -/
def decodeLoad (w : Word) : Instr :=
  match (fieldF3 w).toNat with
  | 0 => .ldx0 (fieldRd w) (fieldRs1 w) (immI w)
  | 1 => .ldx1 (fieldRd w) (fieldRs1 w) (immI w)
  | 2 => .lw (fieldRd w) (fieldRs1 w) (immI w)
  | 3 => .ldx3 (fieldRd w) (fieldRs1 w) (immI w)
  | 4 => .lbu (fieldRd w) (fieldRs1 w) (immI w)
  | 5 => .ldx5 (fieldRd w) (fieldRs1 w) (immI w)
  | 6 => .ldx6 (fieldRd w) (fieldRs1 w) (immI w)
  | _ => .ldx7 (fieldRd w) (fieldRs1 w) (immI w)

/-- A word of the Store group, by selector (30_encoding.md R71; 42_load_store.md R124 to R127). -/
def decodeStore (w : Word) : Instr :=
  match (fieldF3 w).toNat with
  | 0 => .sb (fieldRs1 w) (fieldRs2 w) (immS w)
  | 1 => .stx1 (fieldRs1 w) (fieldRs2 w) (immS w)
  | 2 => .sw (fieldRs1 w) (fieldRs2 w) (immS w)
  | 3 => .stx3 (fieldRs1 w) (fieldRs2 w) (immS w)
  | 4 => .stx4 (fieldRs1 w) (fieldRs2 w) (immS w)
  | 5 => .stx5 (fieldRs1 w) (fieldRs2 w) (immS w)
  | 6 => .stx6 (fieldRs1 w) (fieldRs2 w) (immS w)
  | _ => .stx7 (fieldRs1 w) (fieldRs2 w) (immS w)

/-- The decoder: the group selector picks the category (30_encoding.md R63); a group that is none
of the six is a decode failure with the I immediate (R65, R66). Every 32-bit word is an
instruction (R71, R72), so there is nothing to reject. -/
def decodeWord (w : Word) : Instr :=
  match (fieldGrp w).toNat with
  | 0b00000 => decodeLoad w
  | 0b00001 => .undef00001 (fieldRd w) (fieldRs1 w) (immI w)
  | 0b00010 => .undef00010 (fieldRd w) (fieldRs1 w) (immI w)
  | 0b00011 => .undef00011 (fieldRd w) (fieldRs1 w) (immI w)
  | 0b00100 => .opimm (fieldRd w) (fieldRs1 w) (immI w)
  | 0b00101 => .undef00101 (fieldRd w) (fieldRs1 w) (immI w)
  | 0b00110 => .undef00110 (fieldRd w) (fieldRs1 w) (immI w)
  | 0b00111 => .undef00111 (fieldRd w) (fieldRs1 w) (immI w)
  | 0b01000 => decodeStore w
  | 0b01001 => .undef01001 (fieldRd w) (fieldRs1 w) (immI w)
  | 0b01010 => .undef01010 (fieldRd w) (fieldRs1 w) (immI w)
  | 0b01011 => .undef01011 (fieldRd w) (fieldRs1 w) (immI w)
  | 0b01100 => .op (fieldRd w) (fieldRs1 w) (fieldRs2 w)
  | 0b01101 => .lui (fieldRd w) (immU w)
  | 0b01110 => .undef01110 (fieldRd w) (fieldRs1 w) (immI w)
  | 0b01111 => .undef01111 (fieldRd w) (fieldRs1 w) (immI w)
  | 0b10000 => .undef10000 (fieldRd w) (fieldRs1 w) (immI w)
  | 0b10001 => .undef10001 (fieldRd w) (fieldRs1 w) (immI w)
  | 0b10010 => .undef10010 (fieldRd w) (fieldRs1 w) (immI w)
  | 0b10011 => .undef10011 (fieldRd w) (fieldRs1 w) (immI w)
  | 0b10100 => .undef10100 (fieldRd w) (fieldRs1 w) (immI w)
  | 0b10101 => .undef10101 (fieldRd w) (fieldRs1 w) (immI w)
  | 0b10110 => .undef10110 (fieldRd w) (fieldRs1 w) (immI w)
  | 0b10111 => .undef10111 (fieldRd w) (fieldRs1 w) (immI w)
  | 0b11000 => .undef11000 (fieldRd w) (fieldRs1 w) (immI w)
  | 0b11001 => .jalr (fieldRd w) (fieldRs1 w) (immI w)
  | 0b11010 => .undef11010 (fieldRd w) (fieldRs1 w) (immI w)
  | 0b11011 => .undef11011 (fieldRd w) (fieldRs1 w) (immI w)
  | 0b11100 => .undef11100 (fieldRd w) (fieldRs1 w) (immI w)
  | 0b11101 => .undef11101 (fieldRd w) (fieldRs1 w) (immI w)
  | 0b11110 => .undef11110 (fieldRd w) (fieldRs1 w) (immI w)
  | _ => .undef11111 (fieldRd w) (fieldRs1 w) (immI w)

/-- The instruction at the head of a byte list, lowest address first, with the rest of the list;
a list of fewer than four bytes is rejected by name (log 21). -/
def decodeBytes : List Byte → Except DecodeReject (Instr × List Byte)
  | b0 :: b1 :: b2 :: b3 :: rest => .ok (decodeWord (wordOfBytes b0 b1 b2 b3), rest)
  | _ => .error .truncated

/-- The instruction the decoder reads from an opcode-table row's bits, `nbits` of them; every bit
above is 0. No instruction is longer than 32 bits (30_encoding.md R60). -/
def decodeTableWord (nbits w : Nat) : Option Instr :=
  let v : Word := BitVec.ofNat 32 (w % 2 ^ nbits)
  match decodeBytes [byteOfWord v 0, byteOfWord v 1, byteOfWord v 2, byteOfWord v 3] with
  | .ok (i, _) => if nbits ≤ 32 then some i else none
  | .error _ => none

/-! ### The encoder (30_encoding.md R62, R71, R74)

Ignored bits are 0 and `w[1:0]` is 0b11, as R74 writes its encodings (log 16). -/

/-- Format I (R62): imm[11:0], rs1, selector, rd, group. -/
def encodeI (grp : BitVec 5) (f3 : BitVec 3) (rd rs1 : RegIdx) (imm : Word) : Word :=
  imm.extractLsb' 0 12 ++ rs1 ++ f3 ++ rd ++ grp ++ 0b11#2

/-- Format S (R62): imm[11:5], rs2, rs1, selector, imm[4:0], group. -/
def encodeS (grp : BitVec 5) (f3 : BitVec 3) (rs1 rs2 : RegIdx) (imm : Word) : Word :=
  imm.extractLsb' 5 7 ++ rs2 ++ rs1 ++ f3 ++ imm.extractLsb' 0 5 ++ grp ++ 0b11#2

/-- Format U (R62): imm[31:12], rd, group. -/
def encodeU (grp : BitVec 5) (rd : RegIdx) (imm : Word) : Word :=
  imm.extractLsb' 12 20 ++ rd ++ grp ++ 0b11#2

/-- Format R (R62): rs2, rs1, selector, rd, group, with the ignored high seven bits zero. -/
def encodeR (grp : BitVec 5) (rd rs1 rs2 : RegIdx) : Word :=
  0#7 ++ rs2 ++ rs1 ++ 0#3 ++ rd ++ grp ++ 0b11#2

/-- The word of an instruction (R71, R74). -/
def encode : Instr → Word
  | .opimm rd rs1 imm => encodeI 0b00100 0 rd rs1 imm
  | .op rd rs1 rs2 => encodeR 0b01100 rd rs1 rs2
  | .lui rd imm => encodeU 0b01101 rd imm
  | .jalr rd rs1 imm => encodeI 0b11001 0 rd rs1 imm
  | .lw rd rs1 imm => encodeI 0b00000 2 rd rs1 imm
  | .lbu rd rs1 imm => encodeI 0b00000 4 rd rs1 imm
  | .ldx0 rd rs1 imm => encodeI 0b00000 0 rd rs1 imm
  | .ldx1 rd rs1 imm => encodeI 0b00000 1 rd rs1 imm
  | .ldx3 rd rs1 imm => encodeI 0b00000 3 rd rs1 imm
  | .ldx5 rd rs1 imm => encodeI 0b00000 5 rd rs1 imm
  | .ldx6 rd rs1 imm => encodeI 0b00000 6 rd rs1 imm
  | .ldx7 rd rs1 imm => encodeI 0b00000 7 rd rs1 imm
  | .sb rs1 rs2 imm => encodeS 0b01000 0 rs1 rs2 imm
  | .sw rs1 rs2 imm => encodeS 0b01000 2 rs1 rs2 imm
  | .stx1 rs1 rs2 imm => encodeS 0b01000 1 rs1 rs2 imm
  | .stx3 rs1 rs2 imm => encodeS 0b01000 3 rs1 rs2 imm
  | .stx4 rs1 rs2 imm => encodeS 0b01000 4 rs1 rs2 imm
  | .stx5 rs1 rs2 imm => encodeS 0b01000 5 rs1 rs2 imm
  | .stx6 rs1 rs2 imm => encodeS 0b01000 6 rs1 rs2 imm
  | .stx7 rs1 rs2 imm => encodeS 0b01000 7 rs1 rs2 imm
  | .undef00001 rd rs1 imm => encodeI 0b00001 0 rd rs1 imm
  | .undef00010 rd rs1 imm => encodeI 0b00010 0 rd rs1 imm
  | .undef00011 rd rs1 imm => encodeI 0b00011 0 rd rs1 imm
  | .undef00101 rd rs1 imm => encodeI 0b00101 0 rd rs1 imm
  | .undef00110 rd rs1 imm => encodeI 0b00110 0 rd rs1 imm
  | .undef00111 rd rs1 imm => encodeI 0b00111 0 rd rs1 imm
  | .undef01001 rd rs1 imm => encodeI 0b01001 0 rd rs1 imm
  | .undef01010 rd rs1 imm => encodeI 0b01010 0 rd rs1 imm
  | .undef01011 rd rs1 imm => encodeI 0b01011 0 rd rs1 imm
  | .undef01110 rd rs1 imm => encodeI 0b01110 0 rd rs1 imm
  | .undef01111 rd rs1 imm => encodeI 0b01111 0 rd rs1 imm
  | .undef10000 rd rs1 imm => encodeI 0b10000 0 rd rs1 imm
  | .undef10001 rd rs1 imm => encodeI 0b10001 0 rd rs1 imm
  | .undef10010 rd rs1 imm => encodeI 0b10010 0 rd rs1 imm
  | .undef10011 rd rs1 imm => encodeI 0b10011 0 rd rs1 imm
  | .undef10100 rd rs1 imm => encodeI 0b10100 0 rd rs1 imm
  | .undef10101 rd rs1 imm => encodeI 0b10101 0 rd rs1 imm
  | .undef10110 rd rs1 imm => encodeI 0b10110 0 rd rs1 imm
  | .undef10111 rd rs1 imm => encodeI 0b10111 0 rd rs1 imm
  | .undef11000 rd rs1 imm => encodeI 0b11000 0 rd rs1 imm
  | .undef11010 rd rs1 imm => encodeI 0b11010 0 rd rs1 imm
  | .undef11011 rd rs1 imm => encodeI 0b11011 0 rd rs1 imm
  | .undef11100 rd rs1 imm => encodeI 0b11100 0 rd rs1 imm
  | .undef11101 rd rs1 imm => encodeI 0b11101 0 rd rs1 imm
  | .undef11110 rd rs1 imm => encodeI 0b11110 0 rd rs1 imm
  | .undef11111 rd rs1 imm => encodeI 0b11111 0 rd rs1 imm

/-- The four bytes of an instruction, lowest address first. -/
def encodeBytes (i : Instr) : List Byte :=
  [byteOfWord (encode i) 0, byteOfWord (encode i) 1, byteOfWord (encode i) 2, byteOfWord (encode i) 3]

/-! ### The opcode table (30_encoding.md R71) -/

/-- The table row's name of an instruction. -/
def Instr.mnemonic : Instr → String
  | .opimm _ _ _ => "OPIMM"
  | .op _ _ _ => "OP"
  | .lui _ _ => "LUI"
  | .jalr _ _ _ => "JALR"
  | .lw _ _ _ => "LW"
  | .lbu _ _ _ => "LBU"
  | .ldx0 _ _ _ => "LDX.0"
  | .ldx1 _ _ _ => "LDX.1"
  | .ldx3 _ _ _ => "LDX.3"
  | .ldx5 _ _ _ => "LDX.5"
  | .ldx6 _ _ _ => "LDX.6"
  | .ldx7 _ _ _ => "LDX.7"
  | .sb _ _ _ => "SB"
  | .sw _ _ _ => "SW"
  | .stx1 _ _ _ => "STX.1"
  | .stx3 _ _ _ => "STX.3"
  | .stx4 _ _ _ => "STX.4"
  | .stx5 _ _ _ => "STX.5"
  | .stx6 _ _ _ => "STX.6"
  | .stx7 _ _ _ => "STX.7"
  | .undef00001 _ _ _ => "UNDEF.00001"
  | .undef00010 _ _ _ => "UNDEF.00010"
  | .undef00011 _ _ _ => "UNDEF.00011"
  | .undef00101 _ _ _ => "UNDEF.00101"
  | .undef00110 _ _ _ => "UNDEF.00110"
  | .undef00111 _ _ _ => "UNDEF.00111"
  | .undef01001 _ _ _ => "UNDEF.01001"
  | .undef01010 _ _ _ => "UNDEF.01010"
  | .undef01011 _ _ _ => "UNDEF.01011"
  | .undef01110 _ _ _ => "UNDEF.01110"
  | .undef01111 _ _ _ => "UNDEF.01111"
  | .undef10000 _ _ _ => "UNDEF.10000"
  | .undef10001 _ _ _ => "UNDEF.10001"
  | .undef10010 _ _ _ => "UNDEF.10010"
  | .undef10011 _ _ _ => "UNDEF.10011"
  | .undef10100 _ _ _ => "UNDEF.10100"
  | .undef10101 _ _ _ => "UNDEF.10101"
  | .undef10110 _ _ _ => "UNDEF.10110"
  | .undef10111 _ _ _ => "UNDEF.10111"
  | .undef11000 _ _ _ => "UNDEF.11000"
  | .undef11010 _ _ _ => "UNDEF.11010"
  | .undef11011 _ _ _ => "UNDEF.11011"
  | .undef11100 _ _ _ => "UNDEF.11100"
  | .undef11101 _ _ _ => "UNDEF.11101"
  | .undef11110 _ _ _ => "UNDEF.11110"
  | .undef11111 _ _ _ => "UNDEF.11111"

/-- The rows selected by the group alone: OPIMM, OP, LUI, JALR. -/
def plainRows : List OpcodeRow :=
  [⟨"OPIMM", 0x7C, 0x10⟩, ⟨"OP", 0x7C, 0x30⟩, ⟨"LUI", 0x7C, 0x34⟩, ⟨"JALR", 0x7C, 0x64⟩]

/-- The eight rows of the Load group, by selector. -/
def loadRows : List OpcodeRow :=
  [⟨"LDX.0", 0x707C, 0x0000⟩, ⟨"LDX.1", 0x707C, 0x1000⟩, ⟨"LW", 0x707C, 0x2000⟩, ⟨"LDX.3", 0x707C, 0x3000⟩,
   ⟨"LBU", 0x707C, 0x4000⟩, ⟨"LDX.5", 0x707C, 0x5000⟩, ⟨"LDX.6", 0x707C, 0x6000⟩, ⟨"LDX.7", 0x707C, 0x7000⟩]

/-- The eight rows of the Store group, by selector. -/
def storeRows : List OpcodeRow :=
  [⟨"SB", 0x707C, 0x0020⟩, ⟨"STX.1", 0x707C, 0x1020⟩, ⟨"SW", 0x707C, 0x2020⟩, ⟨"STX.3", 0x707C, 0x3020⟩,
   ⟨"STX.4", 0x707C, 0x4020⟩, ⟨"STX.5", 0x707C, 0x5020⟩, ⟨"STX.6", 0x707C, 0x6020⟩, ⟨"STX.7", 0x707C, 0x7020⟩]

/-- The 26 rows of the unrecognised groups. -/
def undefRows : List OpcodeRow :=
  [⟨"UNDEF.00001", 0x7C, 0x04⟩, ⟨"UNDEF.00010", 0x7C, 0x08⟩, ⟨"UNDEF.00011", 0x7C, 0x0C⟩, ⟨"UNDEF.00101", 0x7C, 0x14⟩,
   ⟨"UNDEF.00110", 0x7C, 0x18⟩, ⟨"UNDEF.00111", 0x7C, 0x1C⟩, ⟨"UNDEF.01001", 0x7C, 0x24⟩, ⟨"UNDEF.01010", 0x7C, 0x28⟩,
   ⟨"UNDEF.01011", 0x7C, 0x2C⟩, ⟨"UNDEF.01110", 0x7C, 0x38⟩, ⟨"UNDEF.01111", 0x7C, 0x3C⟩, ⟨"UNDEF.10000", 0x7C, 0x40⟩,
   ⟨"UNDEF.10001", 0x7C, 0x44⟩, ⟨"UNDEF.10010", 0x7C, 0x48⟩, ⟨"UNDEF.10011", 0x7C, 0x4C⟩, ⟨"UNDEF.10100", 0x7C, 0x50⟩,
   ⟨"UNDEF.10101", 0x7C, 0x54⟩, ⟨"UNDEF.10110", 0x7C, 0x58⟩, ⟨"UNDEF.10111", 0x7C, 0x5C⟩, ⟨"UNDEF.11000", 0x7C, 0x60⟩,
   ⟨"UNDEF.11010", 0x7C, 0x68⟩, ⟨"UNDEF.11011", 0x7C, 0x6C⟩, ⟨"UNDEF.11100", 0x7C, 0x70⟩, ⟨"UNDEF.11101", 0x7C, 0x74⟩,
   ⟨"UNDEF.11110", 0x7C, 0x78⟩, ⟨"UNDEF.11111", 0x7C, 0x7C⟩]

/-- The 46 rows of opcode_table.json with their mask and match values. -/
def opcodeTable : List OpcodeRow := plainRows ++ loadRows ++ storeRows ++ undefRows

/-- A word belongs to a row. -/
def OpcodeRow.hits (r : OpcodeRow) (w : Word) : Bool := w &&& r.mask == r.pattern

/-! ### Pseudo-instructions (30_encoding.md R75; the spec's own, D12) -/

/-- `nop` = `addi x0, x0, 0` -/
def pseudoNop : Instr := .opimm 0 0 0
/-- `mv rd, rs` = `addi rd, rs, 0` -/
def pseudoMv (rd rs : RegIdx) : Instr := .opimm rd rs 0
/-- `li rd, imm` = `addi rd, x0, imm` -/
def pseudoLi (rd : RegIdx) (imm : Word) : Instr := .opimm rd 0 imm
/-- `jr rs` = `jalr x0, 0(rs)` -/
def pseudoJr (rs : RegIdx) : Instr := .jalr 0 rs 0

/-- The `addi` part of a 32-bit constant, `lo = sext_12(c[11:0])` (R75). -/
def constLo (c : Word) : Word := sext12 (c.extractLsb' 0 12)
/-- The `lui` part of a 32-bit constant, `hi` in place: bits 31:12 of `c - lo` (R75). -/
def constHi (c : Word) : Word := immU (c - constLo c)

end Sys2Proof
end

