-- ==== Sys2Proof/Machine/State.lean ====
section
/-! DEFINITION. The machine's state as plain data, its stop reasons and its reset value. -/

namespace Sys2Proof.Machine

/-- General memory `M` (10_state.md R19) as bytes: addresses strictly rising, no entry equal to
`unlistedByte` (log 7). -/
abbrev Memory := List Host.Cell

/-- The pixel grid `P` (10_state.md R20): cell (row, column) under key 256 * row + column, keys
strictly rising, no entry equal to `unlistedPixel` (log 7). -/
abbrev Grid := List (Nat × Word)

/-- What a byte of general memory that is not listed reads as. The spec gives memory beyond the
boot image no value (70_reset_and_hazards.md R192). DESIGN CHOICE, unsafe: log 2. -/
def unlistedByte : Byte := 0

/-- What a pixel cell that is not listed reads as. The spec gives the grid no value before the
first cycle (70_reset_and_hazards.md R192). DESIGN CHOICE, unsafe: log 3. -/
def unlistedPixel : Word := 0

/-- The six error kinds of 60_exceptions.md R160. The last two cannot occur (R13, R100). -/
inductive ErrorKind where
  | decodeError | immediateDecodeError | loadError | saveError | writeBackError | addressingError
deriving DecidableEq, Repr

/-- The whole state: the four items of 10_state.md R10, the capacity parameter, and the two
outputs of the latest cycle (log 5). -/
structure State where
  /-- the capacity of general memory (00_scope.md R2, log 4); no step changes it -/
  config : Config
  /-- `x1` to `x31`, `x_i` in slot i - 1 (10_state.md R11) -/
  regs : Vector Word 31
  /-- the program counter (10_state.md R16) -/
  pc : Word
  /-- general memory (10_state.md R19) -/
  mem : Memory
  /-- the pixel grid (10_state.md R20) -/
  pixels : Grid
  /-- OUTPUT: the report of the latest cycle (10_state.md R27) -/
  report : Option ErrorKind
  /-- OUTPUT: the Flush event of the latest cycle, a copy of the grid (10_state.md R22) -/
  flush : Option Grid
deriving DecidableEq, Repr

/-- There is no fault: every state has exactly one successor, whatever word is fetched
(40_cycle.md R90), no address faults (20_memory.md R31) and no trap exists (60_exceptions.md
R162). So this type has no constructor; nobody raises one, which is what the spec says. -/
inductive Fault where
deriving DecidableEq, Repr

/-- The host's refusal of an instruction without a meaning. -/
inductive Refusal where
  /-- Raised only by an arm of `exec` whose instruction is not modelled; no arm does. Safe. -/
  | notModelled (mnemonic : String)
deriving DecidableEq, Repr

/-- What a meaning answers. -/
abbrev Result := Host.Outcome State Fault Refusal

/-- The state before the first cycle and before a boot image is loaded: pc = 0
(70_reset_and_hazards.md R190), no report and no flush yet (R194). `x1` to `x31`, memory and the
grid have no value in the spec (R191, R192); the zeros here are the model's choice, unsafe: logs 1, 2
and 3. The capacity, k = 16 as in the spec's examples, is a choice too: log 4. -/
def State.reset : State where
  config := ⟨14⟩
  regs := Vector.replicate 31 0
  pc := 0
  mem := []
  pixels := []
  report := none
  flush := none

end Sys2Proof.Machine
end

