-- ==== Sys2Proof/Machine/Ops.lean ====
section
/-! DEFINITION. The named operations over registers, memory, the pixel grid and the outputs. -/

namespace Sys2Proof.Machine

/-! ### Lists of keys and values in canonical form (log 7) -/

/-- The value under a key, or the default of a key that is not listed. -/
def sparseGet {α : Type} (dflt : α) : List (Nat × α) → Nat → α
  | [], _ => dflt
  | c :: rest, a => if c.1 = a then c.2 else sparseGet dflt rest a

/-- The list without a key. -/
def sparseErase {α : Type} (l : List (Nat × α)) (a : Nat) : List (Nat × α) :=
  l.filter (fun c => c.1 != a)

/-- A key and its value put before the first higher key. -/
def sparseInsert {α : Type} : List (Nat × α) → Nat → α → List (Nat × α)
  | [], a, v => [(a, v)]
  | c :: rest, a, v => if a < c.1 then (a, v) :: c :: rest else c :: sparseInsert rest a v

/-- A write: the default value is never listed. -/
def sparseSet {α : Type} [DecidableEq α] (dflt : α) (l : List (Nat × α)) (a : Nat) (v : α) : List (Nat × α) :=
  if v = dflt then sparseErase l a else sparseInsert (sparseErase l a) a v

/-- The canonical form: keys strictly rising, no entry equal to the default. -/
def sparseWf {α : Type} [DecidableEq α] (dflt : α) : List (Nat × α) → Bool
  | [] => true
  | c :: rest => decide (c.2 ≠ dflt) && rest.all (fun d => decide (c.1 < d.1)) && sparseWf dflt rest

/-- Every key lies below a bound. -/
def keysBelow {α : Type} (n : Nat) (l : List (Nat × α)) : Bool := l.all (fun c => decide (c.1 < n))

/-- The canonical form of general memory. -/
def Memory.wf (m : Memory) : Bool := sparseWf unlistedByte m

/-- The canonical form of the pixel grid. -/
def Grid.wf (g : Grid) : Bool := sparseWf unlistedPixel g

/-! ### Registers -/

/-- `x[i]` (10_state.md R11): 0 for address 0. -/
def State.readReg (s : State) (i : RegIdx) : Word :=
  if h : i = 0 then 0 else s.regs[i.toNat - 1]'(by bv_omega)

/-- `x[i] <- v` (10_state.md R12): nothing for address 0. -/
def State.writeReg (s : State) (i : RegIdx) (v : Word) : State :=
  if h : i = 0 then s else { s with regs := s.regs.set (i.toNat - 1) v (by bv_omega) }

/-! ### General memory -/

/-- The byte of general memory at an address below `MEM_BYTES`. -/
def State.byteAt (s : State) (n : Nat) : Byte := sparseGet unlistedByte s.mem n

/-- `M[j]`: four bytes, little-endian (20_memory.md R36, D3, log 11). -/
def Memory.readWord (m : Memory) (j : Nat) : Word :=
  wordOfBytes (sparseGet unlistedByte m (4 * j)) (sparseGet unlistedByte m (4 * j + 1))
    (sparseGet unlistedByte m (4 * j + 2)) (sparseGet unlistedByte m (4 * j + 3))

/-- One byte of general memory replaced. -/
def Memory.setByte (m : Memory) (n : Nat) (b : Byte) : Memory := sparseSet unlistedByte m n b

/-- `M[j] <- v`: four bytes, little-endian (20_memory.md R36, D3, log 11). -/
def Memory.writeWord (m : Memory) (j : Nat) (v : Word) : Memory :=
  (((m.setByte (4 * j) (byteOfWord v 0)).setByte (4 * j + 1) (byteOfWord v 1)).setByte
    (4 * j + 2) (byteOfWord v 2)).setByte (4 * j + 3) (byteOfWord v 3)

/-- `M[j]` of a state. -/
def State.wordAt (s : State) (j : Nat) : Word := s.mem.readWord j

/-- `MEM_MASK` = 2^k - 1 (00_scope.md R2). -/
def memMask (c : Config) : Word := BitVec.ofNat 32 (c.memBytes - 1)

/-- The address masked into general memory (20_memory.md R33; in bytes: R35, D19, log 19). -/
def State.masked (s : State) (a : Word) : Word := a &&& memMask s.config

/-- The index of the containing word (20_memory.md R33); address bits 1:0 drop out (R38, D4,
log 12). -/
def State.widx (s : State) (a : Word) : Nat := (s.masked a >>> 2).toNat

/-- The bit position of the addressed byte in its word (20_memory.md R36, D3, log 11). -/
def lane (a : Word) : Nat := 8 * (a &&& 3).toNat

/-- `MemRead(a, 4)` (20_memory.md R39). -/
def State.memRead4 (s : State) (a : Word) : Word := s.wordAt (s.widx a)

/-- `MemRead(a, 1)` (20_memory.md R40). -/
def State.memRead1 (s : State) (a : Word) : Byte := (s.memRead4 a >>> lane a).setWidth 8

/-- `MemWrite(a, 4, v)` (20_memory.md R41). -/
def State.memWrite4 (s : State) (a v : Word) : State := { s with mem := s.mem.writeWord (s.widx a) v }

/-- `MemWrite(a, 1, b)`: the containing word with one lane replaced (20_memory.md R42). -/
def State.memWrite1 (s : State) (a : Word) (b : Byte) : State :=
  s.memWrite4 a ((s.memRead4 a &&& ~~~(0x000000FF#32 <<< lane a)) ||| (b.zeroExtend 32 <<< lane a))

/-! ### The pixel grid -/

/-- `PIX_BASE` (00_scope.md R2). -/
def pixBase : Word := 0x20000000
/-- `PIX_LIMIT`, exclusive (00_scope.md R2). -/
def pixLimit : Word := 0x20040000

/-- `inwin(a)`: the window test on the unmasked address, unsigned (20_memory.md R43, D17, log 19). -/
def inWindow (a : Word) : Bool := decide (pixBase ≤ a ∧ a < pixLimit)

/-- Column of a window address: bits 9:2 (20_memory.md R44, D6, log 13). -/
def pixCol (a : Word) : BitVec 8 := a.extractLsb' 2 8
/-- Row of a window address: bits 17:10 (20_memory.md R44, D6, log 13). -/
def pixRow (a : Word) : BitVec 8 := a.extractLsb' 10 8

/-- The key of cell (row, column): row-major, 256 cells a row (20_memory.md R44, D6, log 13). -/
def pixKey (row col : BitVec 8) : Nat := 256 * row.toNat + col.toNat

/-- `P[row][col]` (10_state.md R20). -/
def State.pixelAt (s : State) (row col : BitVec 8) : Word := sparseGet unlistedPixel s.pixels (pixKey row col)

/-- The cell write of `PixWrite(a, v)` (20_memory.md R44); its Flush is `advanceFlush`. -/
def State.pixWrite (s : State) (a v : Word) : State :=
  { s with pixels := sparseSet unlistedPixel s.pixels (pixKey (pixRow a) (pixCol a)) v }

/-! ### Fetch, and the end of a cycle -/

/-- The fetched word (40_cycle.md R92, R93): the word containing the byte at `pc`. -/
def State.fetch (s : State) : Word := s.memRead4 s.pc

/-- The end of every cycle: the pc is written, and the cycle gives its report and its Flush or
their absence (40_cycle.md R101, R103). This is all that "raising" an error does here: nothing is
saved, no mode changes and control goes nowhere special (60_exceptions.md R161, R162), so there
is no other exception entry and no return from one. -/
def State.finish (s : State) (pc : Word) (report : Option ErrorKind) (flush : Option Grid) : State :=
  { s with pc := pc, report := report, flush := flush }

/-- The end of a cycle that goes on at `pc + 4` (40_cycle.md R101; modulo 2^32, 10_state.md R18,
D15, log 9) and emits no Flush. -/
def State.advance (s : State) (report : Option ErrorKind) : State := s.finish (s.pc + 4) report none

/-- The end of a pixel store: no report, and a Flush of the grid as it stands (20_memory.md R44,
10_state.md R22, D13, log 17). -/
def State.advanceFlush (s : State) : State := s.finish (s.pc + 4) none (some s.pixels)

end Sys2Proof.Machine
end

