-- ==== Sys2Proof/Machine/Operands.lean ====
section
/-! DEFINITION. Operand forms: the register and immediate operands, the one addressing mode, the
ALU, and which registers each instruction uses and writes. -/

namespace Sys2Proof.Machine

/-- The ALU's sum with the immediate, for every category but OP (40_cycle.md R97); modulo 2^32
(R3, D2, log 9). -/
def State.aluImm (s : State) (rs1 : RegIdx) (imm : Word) : Word := s.readReg rs1 + imm

/-- The ALU's sum of two registers, for OP (40_cycle.md R97). -/
def State.aluReg (s : State) (rs1 rs2 : RegIdx) : Word := s.readReg rs1 + s.readReg rs2

/-- The one addressing mode: base register plus immediate, the ALU's result (42_load_store.md
R123). It is not masked yet. -/
def State.effAddr (s : State) (rs1 : RegIdx) (imm : Word) : Word := s.aluImm rs1 imm

/-- The low byte of a store value (42_load_store.md R124). -/
def lowByte (v : Word) : Byte := byteOfWord v 0

/-- The registers whose value an instruction uses (10_state.md R14, the table's second column). -/
def usedRegs : Instr → List RegIdx
  | .op _ rs1 rs2 => [rs1, rs2]
  | .lui _ _ => []
  | .sb rs1 rs2 _ => [rs1, rs2]
  | .sw rs1 rs2 _ => [rs1, rs2]
  | .stx1 _ _ _ => []
  | .stx3 _ _ _ => []
  | .stx4 _ _ _ => []
  | .stx5 _ _ _ => []
  | .stx6 _ _ _ => []
  | .stx7 _ _ _ => []
  | .opimm _ rs1 _ => [rs1]
  | .jalr _ rs1 _ => [rs1]
  | .lw _ rs1 _ => [rs1]
  | .lbu _ rs1 _ => [rs1]
  | .ldx0 _ rs1 _ => [rs1]
  | .ldx1 _ rs1 _ => [rs1]
  | .ldx3 _ rs1 _ => [rs1]
  | .ldx5 _ rs1 _ => [rs1]
  | .ldx6 _ rs1 _ => [rs1]
  | .ldx7 _ rs1 _ => [rs1]
  | .undef00001 _ rs1 _ => [rs1]
  | .undef00010 _ rs1 _ => [rs1]
  | .undef00011 _ rs1 _ => [rs1]
  | .undef00101 _ rs1 _ => [rs1]
  | .undef00110 _ rs1 _ => [rs1]
  | .undef00111 _ rs1 _ => [rs1]
  | .undef01001 _ rs1 _ => [rs1]
  | .undef01010 _ rs1 _ => [rs1]
  | .undef01011 _ rs1 _ => [rs1]
  | .undef01110 _ rs1 _ => [rs1]
  | .undef01111 _ rs1 _ => [rs1]
  | .undef10000 _ rs1 _ => [rs1]
  | .undef10001 _ rs1 _ => [rs1]
  | .undef10010 _ rs1 _ => [rs1]
  | .undef10011 _ rs1 _ => [rs1]
  | .undef10100 _ rs1 _ => [rs1]
  | .undef10101 _ rs1 _ => [rs1]
  | .undef10110 _ rs1 _ => [rs1]
  | .undef10111 _ rs1 _ => [rs1]
  | .undef11000 _ rs1 _ => [rs1]
  | .undef11010 _ rs1 _ => [rs1]
  | .undef11011 _ rs1 _ => [rs1]
  | .undef11100 _ rs1 _ => [rs1]
  | .undef11101 _ rs1 _ => [rs1]
  | .undef11110 _ rs1 _ => [rs1]
  | .undef11111 _ rs1 _ => [rs1]

/-- The register an instruction writes (10_state.md R14, the table's third column). -/
def destReg : Instr → Option RegIdx
  | .op rd _ _ => some rd
  | .lui rd _ => some rd
  | .sb _ _ _ => none
  | .sw _ _ _ => none
  | .stx1 _ _ _ => none
  | .stx3 _ _ _ => none
  | .stx4 _ _ _ => none
  | .stx5 _ _ _ => none
  | .stx6 _ _ _ => none
  | .stx7 _ _ _ => none
  | .opimm rd _ _ => some rd
  | .jalr rd _ _ => some rd
  | .lw rd _ _ => some rd
  | .lbu rd _ _ => some rd
  | .ldx0 rd _ _ => some rd
  | .ldx1 rd _ _ => some rd
  | .ldx3 rd _ _ => some rd
  | .ldx5 rd _ _ => some rd
  | .ldx6 rd _ _ => some rd
  | .ldx7 rd _ _ => some rd
  | .undef00001 rd _ _ => some rd
  | .undef00010 rd _ _ => some rd
  | .undef00011 rd _ _ => some rd
  | .undef00101 rd _ _ => some rd
  | .undef00110 rd _ _ => some rd
  | .undef00111 rd _ _ => some rd
  | .undef01001 rd _ _ => some rd
  | .undef01010 rd _ _ => some rd
  | .undef01011 rd _ _ => some rd
  | .undef01110 rd _ _ => some rd
  | .undef01111 rd _ _ => some rd
  | .undef10000 rd _ _ => some rd
  | .undef10001 rd _ _ => some rd
  | .undef10010 rd _ _ => some rd
  | .undef10011 rd _ _ => some rd
  | .undef10100 rd _ _ => some rd
  | .undef10101 rd _ _ => some rd
  | .undef10110 rd _ _ => some rd
  | .undef10111 rd _ _ => some rd
  | .undef11000 rd _ _ => some rd
  | .undef11010 rd _ _ => some rd
  | .undef11011 rd _ _ => some rd
  | .undef11100 rd _ _ => some rd
  | .undef11101 rd _ _ => some rd
  | .undef11110 rd _ _ => some rd
  | .undef11111 rd _ _ => some rd

end Sys2Proof.Machine
end

