-- ==== Sys2Proof/Machine/Arith.lean ====
section
/-! DEFINITION. The arithmetic instructions (41_arith.md). -/

namespace Sys2Proof.Machine

/-- OPIMM (R110): always the sum, whatever the selector bits were (40_cycle.md R98). -/
def execOpimm (rd rs1 : RegIdx) (imm : Word) (s : State) : Result :=
  .next ((s.writeReg rd (s.aluImm rs1 imm)).advance none)

/-- OP (R111): always the sum, and always the report ImmediateDecodeError (30_encoding.md R69,
conflict C11, decision D9, log 15). -/
def execOp (rd rs1 rs2 : RegIdx) (s : State) : Result :=
  .next ((s.writeReg rd (s.aluReg rs1 rs2)).advance (some .immediateDecodeError))

end Sys2Proof.Machine
end

