-- ==== Sys2Proof/Machine/LoadStore.lean ====
section
/-! DEFINITION. Loads and stores (42_load_store.md). -/

namespace Sys2Proof.Machine

/-! ### Loads -/

/-- LW (R120): the containing word of general memory, also inside the pixel window (20_memory.md
R45) and at any alignment (R38). -/
def execLw (rd rs1 : RegIdx) (imm : Word) (s : State) : Result :=
  .next ((s.writeReg rd (s.memRead4 (s.effAddr rs1 imm))).advance none)

/-- LBU (R121): the addressed byte, zero-extended. -/
def execLbu (rd rs1 : RegIdx) (imm : Word) (s : State) : Result :=
  .next ((s.writeReg rd ((s.memRead1 (s.effAddr rs1 imm)).zeroExtend 32)).advance none)

/-- LDX (R122): an unsupported load selector reports LoadError and loads the whole containing word
(conflict C7, decision D14, log 18). -/
def loadUnsupported (rd rs1 : RegIdx) (imm : Word) (s : State) : Result :=
  .next ((s.writeReg rd (s.memRead4 (s.effAddr rs1 imm))).advance (some .loadError))

/-- LDX.0 (R122). -/
def execLdx0 (rd rs1 : RegIdx) (imm : Word) (s : State) : Result := loadUnsupported rd rs1 imm s
/-- LDX.1 (R122). -/
def execLdx1 (rd rs1 : RegIdx) (imm : Word) (s : State) : Result := loadUnsupported rd rs1 imm s
/-- LDX.3 (R122). -/
def execLdx3 (rd rs1 : RegIdx) (imm : Word) (s : State) : Result := loadUnsupported rd rs1 imm s
/-- LDX.5 (R122). -/
def execLdx5 (rd rs1 : RegIdx) (imm : Word) (s : State) : Result := loadUnsupported rd rs1 imm s
/-- LDX.6 (R122). -/
def execLdx6 (rd rs1 : RegIdx) (imm : Word) (s : State) : Result := loadUnsupported rd rs1 imm s
/-- LDX.7 (R122). -/
def execLdx7 (rd rs1 : RegIdx) (imm : Word) (s : State) : Result := loadUnsupported rd rs1 imm s

/-! ### Stores -/

/-- SB (R124): the low byte of `x[rs2]` into general memory, never into the pixel grid
(20_memory.md R45). -/
def execSb (rs1 rs2 : RegIdx) (imm : Word) (s : State) : Result :=
  .next ((s.memWrite1 (s.effAddr rs1 imm) (lowByte (s.readReg rs2))).advance none)

/-- SW (R125, R126): the unmasked address chooses between a pixel cell, with one Flush of the grid
after the write, and a word of general memory. -/
def execSw (rs1 rs2 : RegIdx) (imm : Word) (s : State) : Result :=
  if inWindow (s.effAddr rs1 imm) then
    .next ((s.pixWrite (s.effAddr rs1 imm) (s.readReg rs2)).advanceFlush)
  else
    .next ((s.memWrite4 (s.effAddr rs1 imm) (s.readReg rs2)).advance none)

/-- STX (R127): an unsupported store selector reports SaveError and stores nothing anywhere. Its
operands are not used. -/
def storeUnsupported (s : State) : Result :=
  .next (s.advance (some .saveError))

/-- STX.1 (R127). -/
def execStx1 (_rs1 _rs2 : RegIdx) (_imm : Word) (s : State) : Result := storeUnsupported s
/-- STX.3 (R127). -/
def execStx3 (_rs1 _rs2 : RegIdx) (_imm : Word) (s : State) : Result := storeUnsupported s
/-- STX.4 (R127). -/
def execStx4 (_rs1 _rs2 : RegIdx) (_imm : Word) (s : State) : Result := storeUnsupported s
/-- STX.5 (R127). -/
def execStx5 (_rs1 _rs2 : RegIdx) (_imm : Word) (s : State) : Result := storeUnsupported s
/-- STX.6 (R127). -/
def execStx6 (_rs1 _rs2 : RegIdx) (_imm : Word) (s : State) : Result := storeUnsupported s
/-- STX.7 (R127). -/
def execStx7 (_rs1 _rs2 : RegIdx) (_imm : Word) (s : State) : Result := storeUnsupported s

end Sys2Proof.Machine
end

