-- ==== Sys2Proof/Machine/LuiJalr.lean ====
section
/-! DEFINITION. Load-upper-immediate and jump-and-link-register (43_lui_jalr.md). -/

namespace Sys2Proof.Machine

/-- LUI (R140): the decoded immediate, not the ALU's result. -/
def execLui (rd : RegIdx) (imm : Word) (s : State) : Result :=
  .next ((s.writeReg rd imm).advance none)

/-- JALR (R141): the target from the old `x[rs1]` with no bit cleared (conflict C1), the link
`pc + 4` from the pc of the start of the cycle (40_cycle.md R91). -/
def execJalr (rd rs1 : RegIdx) (imm : Word) (s : State) : Result :=
  .next ((s.writeReg rd (s.pc + 4)).finish (s.aluImm rs1 imm) none none)

end Sys2Proof.Machine
end

