-- ==== Sys2Proof/Machine/Undef.lean ====
section
/-! DEFINITION. Words of an unrecognised group (44_decode_failure.md): 26 rows, one meaning. -/

namespace Sys2Proof.Machine

/-- UNDEF (R150): the decoder reports DecodeError and the word then runs exactly as OPIMM on its
own fields, register write included (R65; conflict C2, decision D8, log 14). -/
def undefAdd (rd rs1 : RegIdx) (imm : Word) (s : State) : Result :=
  .next ((s.writeReg rd (s.aluImm rs1 imm)).advance (some .decodeError))

/-- UNDEF.00001 (R150). -/
def execUndef00001 (rd rs1 : RegIdx) (imm : Word) (s : State) : Result := undefAdd rd rs1 imm s
/-- UNDEF.00010 (R150). -/
def execUndef00010 (rd rs1 : RegIdx) (imm : Word) (s : State) : Result := undefAdd rd rs1 imm s
/-- UNDEF.00011 (R150). -/
def execUndef00011 (rd rs1 : RegIdx) (imm : Word) (s : State) : Result := undefAdd rd rs1 imm s
/-- UNDEF.00101 (R150). -/
def execUndef00101 (rd rs1 : RegIdx) (imm : Word) (s : State) : Result := undefAdd rd rs1 imm s
/-- UNDEF.00110 (R150). -/
def execUndef00110 (rd rs1 : RegIdx) (imm : Word) (s : State) : Result := undefAdd rd rs1 imm s
/-- UNDEF.00111 (R150). -/
def execUndef00111 (rd rs1 : RegIdx) (imm : Word) (s : State) : Result := undefAdd rd rs1 imm s
/-- UNDEF.01001 (R150). -/
def execUndef01001 (rd rs1 : RegIdx) (imm : Word) (s : State) : Result := undefAdd rd rs1 imm s
/-- UNDEF.01010 (R150). -/
def execUndef01010 (rd rs1 : RegIdx) (imm : Word) (s : State) : Result := undefAdd rd rs1 imm s
/-- UNDEF.01011 (R150). -/
def execUndef01011 (rd rs1 : RegIdx) (imm : Word) (s : State) : Result := undefAdd rd rs1 imm s
/-- UNDEF.01110 (R150). -/
def execUndef01110 (rd rs1 : RegIdx) (imm : Word) (s : State) : Result := undefAdd rd rs1 imm s
/-- UNDEF.01111 (R150). -/
def execUndef01111 (rd rs1 : RegIdx) (imm : Word) (s : State) : Result := undefAdd rd rs1 imm s
/-- UNDEF.10000 (R150). -/
def execUndef10000 (rd rs1 : RegIdx) (imm : Word) (s : State) : Result := undefAdd rd rs1 imm s
/-- UNDEF.10001 (R150). -/
def execUndef10001 (rd rs1 : RegIdx) (imm : Word) (s : State) : Result := undefAdd rd rs1 imm s
/-- UNDEF.10010 (R150). -/
def execUndef10010 (rd rs1 : RegIdx) (imm : Word) (s : State) : Result := undefAdd rd rs1 imm s
/-- UNDEF.10011 (R150). -/
def execUndef10011 (rd rs1 : RegIdx) (imm : Word) (s : State) : Result := undefAdd rd rs1 imm s
/-- UNDEF.10100 (R150). -/
def execUndef10100 (rd rs1 : RegIdx) (imm : Word) (s : State) : Result := undefAdd rd rs1 imm s
/-- UNDEF.10101 (R150). -/
def execUndef10101 (rd rs1 : RegIdx) (imm : Word) (s : State) : Result := undefAdd rd rs1 imm s
/-- UNDEF.10110 (R150). -/
def execUndef10110 (rd rs1 : RegIdx) (imm : Word) (s : State) : Result := undefAdd rd rs1 imm s
/-- UNDEF.10111 (R150). -/
def execUndef10111 (rd rs1 : RegIdx) (imm : Word) (s : State) : Result := undefAdd rd rs1 imm s
/-- UNDEF.11000 (R150). -/
def execUndef11000 (rd rs1 : RegIdx) (imm : Word) (s : State) : Result := undefAdd rd rs1 imm s
/-- UNDEF.11010 (R150). -/
def execUndef11010 (rd rs1 : RegIdx) (imm : Word) (s : State) : Result := undefAdd rd rs1 imm s
/-- UNDEF.11011 (R150). -/
def execUndef11011 (rd rs1 : RegIdx) (imm : Word) (s : State) : Result := undefAdd rd rs1 imm s
/-- UNDEF.11100 (R150). -/
def execUndef11100 (rd rs1 : RegIdx) (imm : Word) (s : State) : Result := undefAdd rd rs1 imm s
/-- UNDEF.11101 (R150). -/
def execUndef11101 (rd rs1 : RegIdx) (imm : Word) (s : State) : Result := undefAdd rd rs1 imm s
/-- UNDEF.11110 (R150). -/
def execUndef11110 (rd rs1 : RegIdx) (imm : Word) (s : State) : Result := undefAdd rd rs1 imm s
/-- UNDEF.11111 (R150). -/
def execUndef11111 (rd rs1 : RegIdx) (imm : Word) (s : State) : Result := undefAdd rd rs1 imm s

end Sys2Proof.Machine
end

