-- ==== Sys2Proof/Machine/Dispatch.lean ====
section
/-! DEFINITION. One arm for each constructor of Instr: a direct call of its meaning. -/

namespace Sys2Proof.Machine

def exec (i : Instr) (s : State) : Host.Outcome State Fault Refusal :=
  match i with
  -- arithmetic (41_arith.md)
  | .opimm rd rs1 imm => Sys2Proof.Machine.execOpimm rd rs1 imm s
  | .op rd rs1 rs2 => Sys2Proof.Machine.execOp rd rs1 rs2 s
  -- load-upper-immediate and jump (43_lui_jalr.md)
  | .lui rd imm => Sys2Proof.Machine.execLui rd imm s
  | .jalr rd rs1 imm => Sys2Proof.Machine.execJalr rd rs1 imm s
  -- loads (42_load_store.md section 2)
  | .lw rd rs1 imm => Sys2Proof.Machine.execLw rd rs1 imm s
  | .lbu rd rs1 imm => Sys2Proof.Machine.execLbu rd rs1 imm s
  | .ldx0 rd rs1 imm => Sys2Proof.Machine.execLdx0 rd rs1 imm s
  | .ldx1 rd rs1 imm => Sys2Proof.Machine.execLdx1 rd rs1 imm s
  | .ldx3 rd rs1 imm => Sys2Proof.Machine.execLdx3 rd rs1 imm s
  | .ldx5 rd rs1 imm => Sys2Proof.Machine.execLdx5 rd rs1 imm s
  | .ldx6 rd rs1 imm => Sys2Proof.Machine.execLdx6 rd rs1 imm s
  | .ldx7 rd rs1 imm => Sys2Proof.Machine.execLdx7 rd rs1 imm s
  -- stores (42_load_store.md section 3)
  | .sb rs1 rs2 imm => Sys2Proof.Machine.execSb rs1 rs2 imm s
  | .sw rs1 rs2 imm => Sys2Proof.Machine.execSw rs1 rs2 imm s
  | .stx1 rs1 rs2 imm => Sys2Proof.Machine.execStx1 rs1 rs2 imm s
  | .stx3 rs1 rs2 imm => Sys2Proof.Machine.execStx3 rs1 rs2 imm s
  | .stx4 rs1 rs2 imm => Sys2Proof.Machine.execStx4 rs1 rs2 imm s
  | .stx5 rs1 rs2 imm => Sys2Proof.Machine.execStx5 rs1 rs2 imm s
  | .stx6 rs1 rs2 imm => Sys2Proof.Machine.execStx6 rs1 rs2 imm s
  | .stx7 rs1 rs2 imm => Sys2Proof.Machine.execStx7 rs1 rs2 imm s
  -- words of an unrecognised group (44_decode_failure.md)
  | .undef00001 rd rs1 imm => Sys2Proof.Machine.execUndef00001 rd rs1 imm s
  | .undef00010 rd rs1 imm => Sys2Proof.Machine.execUndef00010 rd rs1 imm s
  | .undef00011 rd rs1 imm => Sys2Proof.Machine.execUndef00011 rd rs1 imm s
  | .undef00101 rd rs1 imm => Sys2Proof.Machine.execUndef00101 rd rs1 imm s
  | .undef00110 rd rs1 imm => Sys2Proof.Machine.execUndef00110 rd rs1 imm s
  | .undef00111 rd rs1 imm => Sys2Proof.Machine.execUndef00111 rd rs1 imm s
  | .undef01001 rd rs1 imm => Sys2Proof.Machine.execUndef01001 rd rs1 imm s
  | .undef01010 rd rs1 imm => Sys2Proof.Machine.execUndef01010 rd rs1 imm s
  | .undef01011 rd rs1 imm => Sys2Proof.Machine.execUndef01011 rd rs1 imm s
  | .undef01110 rd rs1 imm => Sys2Proof.Machine.execUndef01110 rd rs1 imm s
  | .undef01111 rd rs1 imm => Sys2Proof.Machine.execUndef01111 rd rs1 imm s
  | .undef10000 rd rs1 imm => Sys2Proof.Machine.execUndef10000 rd rs1 imm s
  | .undef10001 rd rs1 imm => Sys2Proof.Machine.execUndef10001 rd rs1 imm s
  | .undef10010 rd rs1 imm => Sys2Proof.Machine.execUndef10010 rd rs1 imm s
  | .undef10011 rd rs1 imm => Sys2Proof.Machine.execUndef10011 rd rs1 imm s
  | .undef10100 rd rs1 imm => Sys2Proof.Machine.execUndef10100 rd rs1 imm s
  | .undef10101 rd rs1 imm => Sys2Proof.Machine.execUndef10101 rd rs1 imm s
  | .undef10110 rd rs1 imm => Sys2Proof.Machine.execUndef10110 rd rs1 imm s
  | .undef10111 rd rs1 imm => Sys2Proof.Machine.execUndef10111 rd rs1 imm s
  | .undef11000 rd rs1 imm => Sys2Proof.Machine.execUndef11000 rd rs1 imm s
  | .undef11010 rd rs1 imm => Sys2Proof.Machine.execUndef11010 rd rs1 imm s
  | .undef11011 rd rs1 imm => Sys2Proof.Machine.execUndef11011 rd rs1 imm s
  | .undef11100 rd rs1 imm => Sys2Proof.Machine.execUndef11100 rd rs1 imm s
  | .undef11101 rd rs1 imm => Sys2Proof.Machine.execUndef11101 rd rs1 imm s
  | .undef11110 rd rs1 imm => Sys2Proof.Machine.execUndef11110 rd rs1 imm s
  | .undef11111 rd rs1 imm => Sys2Proof.Machine.execUndef11111 rd rs1 imm s

end Sys2Proof.Machine
end

