-- ==== Sys2Proof/Machine/Step.lean ====
section
/-! DEFINITION. One cycle: fetch, decode, execute (40_cycle.md R90, R91). -/

namespace Sys2Proof.Machine

/-- One invocation of the cycle operation (10_state.md R21, 40_cycle.md R90). -/
def step (s : State) : Host.Outcome State Fault Refusal := exec (decodeWord s.fetch) s

/-- The state with an instruction's bits in the word that the next fetch reads: the host's stand-in
for the boot load of one word (10_state.md R26, log 6). -/
def State.withFetchWord (s : State) (nbits w : Nat) : State :=
  s.memWrite4 s.pc (BitVec.ofNat 32 (w % 2 ^ nbits))

/-- The outputs of the next `n` cycles, in order: each cycle's report and its Flush event, or their
absence (10_state.md R22, R27; 40_cycle.md R103). -/
def outputs : Nat → State → List (Option ErrorKind × Option Grid)
  | 0, _ => []
  | n + 1, s =>
    match step s with
    | .next t => (t.report, t.flush) :: outputs n t
    | .fault _ => []
    | .refused _ => []

end Sys2Proof.Machine
end

