-- ==== Sys2Proof/Machine/Boot.lean ====
section
/-! DEFINITION. The boot load, the core's one input before the first cycle (10_state.md R26). -/

namespace Sys2Proof.Machine

/-- Words written one after another from word index `j` on. -/
def Memory.writeWords (m : Memory) (j : Nat) : List Word → Memory
  | [] => m
  | v :: vs => (m.writeWord j v).writeWords (j + 1) vs

/-- The boot load (70_reset_and_hazards.md R193): word j of the image becomes `M[j]`, verbatim. An
image longer than memory is outside the spec (D16, log 20) and is not loaded. -/
def State.loadImage (s : State) (img : List Word) : Option State :=
  if img.length ≤ s.config.memWords then some { s with mem := s.mem.writeWords 0 img } else none

end Sys2Proof.Machine
end

