-- ==== Sys2Proof/Machine/Cycle.lean ====
section
/-! DEFINITION. The reference of 40_cycle.md R102: the whole step, unit by unit in the order of
R91. `step` does not use it; that the two agree is a statement for the provers. -/

namespace Sys2Proof.Machine

/-- The decoding context, transient and recomputed every cycle (10_state.md R24). -/
structure DecodeContext where
  cat : Category
  f3 : BitVec 3
  rs1 : RegIdx
  rs2 : RegIdx
  rd : RegIdx
  imm : Word
  report : Option ErrorKind
deriving DecidableEq, Repr

/-- What the memory access unit hands on: the state after its access, the loaded value, its
report and its Flush. -/
structure AccessResult where
  state : State
  loaded : Word
  report : Option ErrorKind
  flush : Option Grid
deriving DecidableEq, Repr

/-- Classification (30_encoding.md R63); none is a decode failure. -/
def groupCategory (g : BitVec 5) : Option Category :=
  if g = 0b01101 then some .lui
  else if g = 0b11001 then some .jalr
  else if g = 0b00000 then some .load
  else if g = 0b01000 then some .store
  else if g = 0b00100 then some .opimm
  else if g = 0b01100 then some .op
  else none

/-- The function selector (30_encoding.md R64): 0 for LUI, JALR and on decode failure. -/
def selectorOf (cat : Option Category) (w : Word) : BitVec 3 :=
  match cat with
  | none => 0
  | some .lui => 0
  | some .jalr => 0
  | some .load => fieldF3 w
  | some .store => fieldF3 w
  | some .opimm => fieldF3 w
  | some .op => fieldF3 w

/-- The immediate decoder (30_encoding.md R66 to R69). -/
def immediateOf (cat : Category) (w : Word) : Word :=
  match cat with
  | .opimm => immI w
  | .load => immI w
  | .jalr => immI w
  | .store => immS w
  | .lui => immU w
  | .op => 0

/-- InstructionDecoder and ImmediateDecoder (40_cycle.md R94, R95; 30_encoding.md R65, R69). -/
def decodeContext (w : Word) : DecodeContext :=
  let found := groupCategory (fieldGrp w)
  let cat := found.getD .opimm
  { cat := cat
    f3 := selectorOf found w
    rs1 := fieldRs1 w
    rs2 := fieldRs2 w
    rd := fieldRd w
    imm := immediateOf cat w
    report := if found = none then some .decodeError
      else if cat = .op then some .immediateDecodeError else none }

/-- The ALU (40_cycle.md R97): it never sees the selector (R98). -/
def aluUnit (cat : Category) (a b imm : Word) : Word := if cat = .op then a + b else a + imm

/-- The memory access unit (40_cycle.md R99). -/
def accessUnit (s : State) (cat : Category) (f3 : BitVec 3) (addr b : Word) : AccessResult :=
  match cat with
  | .store =>
    if f3 = 0 then ⟨s.memWrite1 addr (b.setWidth 8), 0, none, none⟩
    else if f3 = 2 then
      if inWindow addr then ⟨s.pixWrite addr b, 0, none, some (s.pixWrite addr b).pixels⟩
      else ⟨s.memWrite4 addr b, 0, none, none⟩
    else ⟨s, 0, some .saveError, none⟩
  | .load =>
    if f3 = 4 then ⟨s, (s.memRead1 addr).zeroExtend 32, none, none⟩
    else if f3 = 2 then ⟨s, s.memRead4 addr, none, none⟩
    else ⟨s, s.memRead4 addr, some .loadError, none⟩
  | .opimm => ⟨s, 0, none, none⟩
  | .op => ⟨s, 0, none, none⟩
  | .lui => ⟨s, 0, none, none⟩
  | .jalr => ⟨s, 0, none, none⟩

/-- Write-back (40_cycle.md R100). -/
def writeBackUnit (s : State) (cat : Category) (rd : RegIdx) (alu loaded imm link : Word) : State :=
  match cat with
  | .opimm => s.writeReg rd alu
  | .op => s.writeReg rd alu
  | .load => s.writeReg rd loaded
  | .lui => s.writeReg rd imm
  | .jalr => s.writeReg rd link
  | .store => s

/-- The program counter updater (40_cycle.md R101). -/
def pcUnit (cat : Category) (pc0 alu : Word) : Word := if cat = .jalr then alu else pc0 + 4

/-- `Cycle()` of 40_cycle.md R102. -/
def cycle (s : State) : State :=
  let ctx := decodeContext s.fetch
  let a := s.readReg ctx.rs1
  let b := s.readReg ctx.rs2
  let alu := aluUnit ctx.cat a b ctx.imm
  let acc := accessUnit s ctx.cat ctx.f3 alu b
  let done := writeBackUnit acc.state ctx.cat ctx.rd alu acc.loaded ctx.imm (s.pc + 4)
  done.finish (pcUnit ctx.cat s.pc alu) (ctx.report.or acc.report) acc.flush

end Sys2Proof.Machine
end

