-- ==== Sys2Proof/Machine/Flags.lean ====
section
/-! DEFINITION. The hardware has no flag and no condition code (10_state.md R23). The one thing an
instruction says about itself is its report, computed here from the word alone by the table of
60_exceptions.md R160; the meanings set it each on their own. -/

namespace Sys2Proof.Machine

/-- The group is one of the six recognised ones (30_encoding.md R63). -/
def recognisedGroup (g : BitVec 5) : Bool :=
  g == 0b00000 || g == 0b00100 || g == 0b01000 || g == 0b01100 || g == 0b01101 || g == 0b11001

/-- Which error kind a cycle that executes this word reports (60_exceptions.md R160, column "cause,
exactly"): at most one (R169). -/
def wordReport (w : Word) : Option ErrorKind :=
  if !recognisedGroup (fieldGrp w) then some .decodeError
  else if fieldGrp w == 0b01100 then some .immediateDecodeError
  else if fieldGrp w == 0b00000 && fieldF3 w != 2 && fieldF3 w != 4 then some .loadError
  else if fieldGrp w == 0b01000 && fieldF3 w != 0 && fieldF3 w != 2 then some .saveError
  else none

end Sys2Proof.Machine
end

