-- ==== Sys2Proof/Safety.lean ====
section
/-! DEFINITION. What counts as a legal state and a safe run. Nothing here can stop: the machine has
no fault (40_cycle.md R90), so safety is about the shape of the state and about reports. -/

namespace Sys2Proof.Machine

/-- The invariant of every step. General memory and the grid are in canonical form (log 7) and lie
inside their arrays (10_state.md R19, R20); a Flush carries the grid as it stands (R22); the report
is not one of the two kinds that cannot occur (60_exceptions.md R160). -/
def State.legal (s : State) : Bool :=
  s.mem.wf && keysBelow s.config.memBytes s.mem
    && Grid.wf s.pixels && keysBelow 65536 s.pixels
    && (s.flush == none || s.flush == some s.pixels)
    && s.report != some .writeBackError && s.report != some .addressingError

/-- What the spec fixes before the first cycle, for a given boot image: pc = 0, the image at the
start of memory, no output yet (70_reset_and_hazards.md R190, R193, R194). The registers, the rest
of memory and the grid are free (R191, R192). -/
def State.launch (img : List Word) (s : State) : Prop :=
  s.pc = 0 ∧ img.length ≤ s.config.memWords ∧ (∀ j (h : j < img.length), s.wordAt j = img[j])
    ∧ s.report = none ∧ s.flush = none ∧ s.legal = true

/-- No report in the next `n` cycles: what a halt-on-error run loop demands of a run
(60_exceptions.md R163). That policy is the caller's, not the core's. -/
def quietFor : Nat → State → Bool
  | 0, _ => true
  | n + 1, s =>
    match step s with
    | .next t => t.report == none && quietFor n t
    | .fault _ => false
    | .refused _ => false

/-- Two states agree on everything a program can reach: all but the two outputs (10_state.md R10). -/
def sameArch (s t : State) : Prop :=
  s.config = t.config ∧ s.regs = t.regs ∧ s.pc = t.pc ∧ s.mem = t.mem ∧ s.pixels = t.pixels

/-! ### Frames: what a cycle leaves alone, in the terms a program or the display sees -/

/-- Register `rd` takes `v`, and nothing happens for address 0; every other register keeps its
value (10_state.md R11, R12). -/
def regSet (s t : State) (rd : RegIdx) (v : Word) : Prop :=
  ∀ r, t.readReg r = if r = rd ∧ r ≠ 0 then v else s.readReg r

/-- Every register keeps its value. -/
def regsKept (s t : State) : Prop := ∀ r, t.readReg r = s.readReg r

/-- Every byte of general memory keeps its value. -/
def memKept (s t : State) : Prop := ∀ n, t.byteAt n = s.byteAt n

/-- Every pixel cell keeps its value. -/
def gridKept (s t : State) : Prop := ∀ y x, t.pixelAt y x = s.pixelAt y x

/-! ### The groups of rows that one rule covers -/

/-- The six LDX rows (42_load_store.md R122). -/
def ldxRows : List (RegIdx → RegIdx → Word → Instr) :=
  [.ldx0, .ldx1, .ldx3, .ldx5, .ldx6, .ldx7]

/-- The six STX rows (42_load_store.md R127). -/
def stxRows : List (RegIdx → RegIdx → Word → Instr) :=
  [.stx1, .stx3, .stx4, .stx5, .stx6, .stx7]

/-- The 26 UNDEF rows (44_decode_failure.md R150). -/
def undefInstrs : List (RegIdx → RegIdx → Word → Instr) :=
  [.undef00001, .undef00010, .undef00011, .undef00101, .undef00110, .undef00111, .undef01001, .undef01010,
   .undef01011, .undef01110, .undef01111, .undef10000, .undef10001, .undef10010, .undef10011, .undef10100,
   .undef10101, .undef10110, .undef10111, .undef11000, .undef11010, .undef11011, .undef11100, .undef11101,
   .undef11110, .undef11111]

end Sys2Proof.Machine
end

