-- ==== Sys2Proof/Certificates/Slice0/Obligations.lean ====
section
/-! DEFINITION. The statements about the model, for the provers. "D<n>" is a decision of
92_eei_decisions.md, "log <n>" a row of notes/assumptions/. In every statement `+` on words is
addition modulo 2^32, which 00_scope.md R3 fixes by the spec's own decision D2 (D15 for the pc):
log 9. -/

open Sys2Proof Sys2Proof.Machine

/-! ### Reset, boot and the invariant -/

/-- 70_reset_and_hazards.md R190 (pc = 0: the spec's decision D7, log 10) and R194 (no output before
the first cycle). Nothing is said of the registers, memory or grid, whose values at reset are the
model's choice (logs 1, 2, 3). -/
def Obligations.ResetPcAndOutputs : Prop :=
  State.reset.pc = 0 ∧ State.reset.report = none ∧ State.reset.flush = none

/-- The invariant holds at reset, and reset is a launch state for the empty image (logs 6, 7). -/
def Obligations.ResetIsLegalLaunch : Prop :=
  State.reset.legal = true ∧ State.reset.launch []

/-- The invariant of every step, from every state that meets it: general memory and the pixel grid
keep their canonical form (log 7) and stay inside their arrays, a Flush carries the grid as it
stands after the cycle (10_state.md R22, D13, log 17), and the report is never WriteBackError or
AddressingError (60_exceptions.md R160). -/
def Obligations.StepKeepsLegal : Prop :=
  ∀ s t : State, s.legal = true → step s = .next t → t.legal = true

/-- No step changes the capacity of general memory, a fixed parameter of 00_scope.md R2 (log 4). -/
def Obligations.CapacityNeverChanges : Prop :=
  ∀ s t : State, step s = .next t → t.config = s.config

/-- Two lists in canonical form that read the same everywhere are the same list, for general memory
and for the grid: equal contents are equal data. The form is the model's choice (log 7). -/
def Obligations.CanonicalFormUnique : Prop :=
  (∀ m m' : Memory, m.wf = true → m'.wf = true →
      (∀ n, sparseGet unlistedByte m n = sparseGet unlistedByte m' n) → m = m') ∧
  (∀ g g' : Grid, Grid.wf g = true → Grid.wf g' = true →
      (∀ n, sparseGet unlistedPixel g n = sparseGet unlistedPixel g' n) → g = g')

/-- The boot load, 70_reset_and_hazards.md R193 (D16, log 20): an image that fits is loaded, word j
becomes `M[j]`, byte i of the file is at address i (little-endian: D3, log 11), and nothing else
changes; an image that does not fit is outside the spec and is not loaded. -/
def Obligations.BootLoadPlacesImage : Prop :=
  ∀ (s : State) (img : List Word),
    (s.config.memWords < img.length → s.loadImage img = none) ∧
    (img.length ≤ s.config.memWords → ∃ t, s.loadImage img = some t ∧
      (∀ j (h : j < img.length), t.wordAt j = img[j]) ∧
      (∀ i (h : i / 4 < img.length), t.byteAt i = img[i / 4].extractLsb' (8 * (i % 4)) 8) ∧
      (∀ n, 4 * img.length ≤ n → t.byteAt n = s.byteAt n) ∧
      regsKept s t ∧ gridKept s t ∧ t.pc = s.pc ∧ t.config = s.config ∧ t.report = s.report ∧ t.flush = s.flush)

/-! ### Decoding and encoding -/

/-- Decoding the word or the bytes of any well-formed instruction gives it back, at every value of
every operand (30_encoding.md R62, R66 to R69, R71). -/
def Obligations.DecodeEncodeRoundTrip : Prop :=
  ∀ i : Instr, i.wf = true →
    decodeWord (encode i) = i ∧ ∀ rest, decodeBytes (encodeBytes i ++ rest) = .ok (i, rest)

/-- Every word decodes to a well-formed instruction: the immediate decoder's range (30_encoding.md
R66, R67, R68). -/
def Obligations.DecodedIsWellFormed : Prop :=
  ∀ w : Word, (decodeWord w).wf = true

/-- The 46 rows of the opcode table partition all words, and the decoder answers the instruction of
the one row a word belongs to (30_encoding.md R71, an inference the spec marks as derived). -/
def Obligations.EveryWordHitsItsOneRow : Prop :=
  opcodeTable.length = 46 ∧
  ∀ w : Word, ∃ r ∈ opcodeTable, r.hits w = true ∧ r.mnemonic = (decodeWord w).mnemonic ∧
    ∀ r' ∈ opcodeTable, r'.hits w = true → r' = r

/-- 30_encoding.md R70, its whole table: two words that differ only in bits the table calls ignored
for their category do the same, state change, report and all. -/
def Obligations.IgnoredBitsChangeNothing : Prop :=
  ∀ (w w' : Word) (s : State),
    (w &&& 0xFFFFFFFC = w' &&& 0xFFFFFFFC → exec (decodeWord w) s = exec (decodeWord w') s) ∧
    (w.extractLsb' 2 5 = 0b00100 → w &&& 0xFFFF8FFC = w' &&& 0xFFFF8FFC →
      exec (decodeWord w) s = exec (decodeWord w') s) ∧
    (w.extractLsb' 2 5 = 0b01100 → w &&& 0x01FF8FFC = w' &&& 0x01FF8FFC →
      exec (decodeWord w) s = exec (decodeWord w') s) ∧
    (w.extractLsb' 2 5 = 0b11001 → w &&& 0xFFFF8FFC = w' &&& 0xFFFF8FFC →
      exec (decodeWord w) s = exec (decodeWord w') s) ∧
    (recognisedGroup (w.extractLsb' 2 5) = false → recognisedGroup (w'.extractLsb' 2 5) = false →
      w &&& 0xFFFF8F80 = w' &&& 0xFFFF8F80 → exec (decodeWord w) s = exec (decodeWord w') s)

/-- Words of 95_test_vectors.md section V8 decode to the instructions that section gives. -/
def Obligations.SampleWordsDecode : Prop :=
  decodeWord 0x123452B7 = .lui 5 0x12345000 ∧ decodeWord 0x0020A223 = .sw 1 2 4 ∧
  decodeWord 0xFE20AE23 = .sw 1 2 0xFFFFFFFC ∧ decodeWord 0xFFF08093 = .opimm 1 1 0xFFFFFFFF ∧
  decodeWord 0x002081B3 = .op 3 1 2 ∧ decodeWord 0x008100E7 = .jalr 1 2 8 ∧ decodeWord 0x0010C183 = .lbu 3 1 1 ∧
  decodeWord 0x00000463 = .undef11000 8 0 0 ∧ decodeWord 0xFFFFFFFF = .undef11111 31 31 0xFFFFFFFF ∧
  decodeWord 0x00000000 = .ldx0 0 0 0 ∧ decodeWord 0x80000023 = .sb 0 0 0xFFFFF800 ∧
  decodeWord 0x7E000FA3 = .sb 0 0 0x7FF

/-- The decoder on bytes is total and rejects exactly the lists that are too short, by name
(30_encoding.md R60: one length; the byte interface is the model's, log 21). -/
def Obligations.ShortBytesRejected : Prop :=
  ∀ l : List Byte,
    (l.length < 4 → decodeBytes l = .error .truncated) ∧
    (4 ≤ l.length → ∃ i, decodeBytes l = .ok (i, l.drop 4))

/-- The assembler's encodings of 30_encoding.md R74, by its shift-and-or formulas (the syntax is the
spec's decision D12, bits 1:0 = 0b11: log 16). -/
def Obligations.AssemblerEncodings : Prop :=
  ∀ (rd rs1 rs2 : RegIdx) (imm : Word),
    let z := fun r : RegIdx => r.zeroExtend 32
    let iType := ((imm &&& 0xFFF) <<< 20) ||| (z rs1 <<< 15) ||| (z rd <<< 7)
    let sType := (((imm >>> 5) &&& 0x7F) <<< 25) ||| (z rs2 <<< 20) ||| (z rs1 <<< 15) ||| ((imm &&& 0x1F) <<< 7)
    encode (.opimm rd rs1 imm) = iType ||| 0x13 ∧
    encode (.op rd rs1 rs2) = (z rs2 <<< 20) ||| (z rs1 <<< 15) ||| (z rd <<< 7) ||| 0x33 ∧
    encode (.lw rd rs1 imm) = iType ||| (2 <<< 12) ||| 0x03 ∧
    encode (.lbu rd rs1 imm) = iType ||| (4 <<< 12) ||| 0x03 ∧
    encode (.sb rs1 rs2 imm) = sType ||| 0x23 ∧
    encode (.sw rs1 rs2 imm) = sType ||| (2 <<< 12) ||| 0x23 ∧
    encode (.lui rd imm) = (imm &&& 0xFFFFF000) ||| (z rd <<< 7) ||| 0x37 ∧
    encode (.jalr rd rs1 imm) = iType ||| 0x67

/-- Any 32-bit constant is the sum of its `lui` and its `addi` part, and both parts have an encoding
(30_encoding.md R75, which the spec marks as derived). -/
def Obligations.ConstantFromTwoParts : Prop :=
  ∀ (c : Word) (rd : RegIdx), constHi c + constLo c = c ∧
    (Instr.lui rd (constHi c)).wf = true ∧ (Instr.opimm rd rd (constLo c)).wf = true

/-- The pseudo-instructions of 30_encoding.md R75 (D12, the spec's own): `nop` only moves the pc,
`mv` copies, `li` loads a constant, `jr` jumps without a link. -/
def Obligations.PseudoInstructionEffects : Prop :=
  ∀ s : State,
    encode pseudoNop = 0x00000013 ∧
    exec pseudoNop s = .next (s.advance none) ∧
    (∀ rd rs, ∃ t, exec (pseudoMv rd rs) s = .next t ∧ regSet s t rd (s.readReg rs) ∧ t.pc = s.pc + 4) ∧
    (∀ rd imm, ∃ t, exec (pseudoLi rd imm) s = .next t ∧ regSet s t rd imm ∧ t.pc = s.pc + 4) ∧
    (∀ rs, ∃ t, exec (pseudoJr rs) s = .next t ∧ regsKept s t ∧ t.pc = s.readReg rs)

/-! ### The step -/

/-- When the four bytes of general memory at the word the pc selects, lowest address first, head a
list that decodes to an instruction, the step is that instruction's `exec` and nothing more
(40_cycle.md R91, R92; byte order D3, log 11; the containing word at a misaligned pc D4, log 12). -/
def Obligations.StepRunsDecodedInstruction : Prop :=
  ∀ (s : State) (i : Instr) (rest rest' : List Byte),
    decodeBytes (s.byteAt (4 * s.widx s.pc) :: s.byteAt (4 * s.widx s.pc + 1) :: s.byteAt (4 * s.widx s.pc + 2)
      :: s.byteAt (4 * s.widx s.pc + 3) :: rest) = .ok (i, rest') →
    step s = exec i s

/-- The word of a well-formed instruction, placed where the next fetch reads it, is the one that
runs, whatever the pc and the capacity (40_cycle.md R92; the placing stands for the boot load,
log 6). -/
def Obligations.PlacedInstructionRuns : Prop :=
  ∀ (s : State) (i : Instr), i.wf = true →
    step (s.withFetchWord 32 (encode i).toNat) = exec i (s.withFetchWord 32 (encode i).toNat)

/-- 40_cycle.md R90: the cycle never fails, blocks or stops. Every state has exactly one successor,
whatever word is fetched, and every instruction completes in every state. -/
def Obligations.EveryStateHasOneSuccessor : Prop :=
  (∀ s : State, ∃ t, step s = .next t ∧ ∀ t', step s = .next t' → t' = t) ∧
  (∀ (i : Instr) (s : State), ∃ t, exec i s = .next t)

/-- The step is the whole-cycle reference of 40_cycle.md R102, which the spec derives from its unit
rules R92 to R101: the two were written apart, one per instruction, one per unit. -/
def Obligations.StepAgreesWithReferenceCycle : Prop :=
  ∀ s : State, step s = .next (cycle s)

/-- 40_cycle.md R101: JALR sets the pc to the ALU result with no bit cleared, every other word
moves it on by 4, reporting words included. -/
def Obligations.PcUpdateByCategory : Prop :=
  ∀ s : State, ∃ t, step s = .next t ∧
    t.pc = if s.fetch.extractLsb' 2 5 = 0b11001 then
        s.readReg (s.fetch.extractLsb' 15 5) + (s.fetch.extractLsb' 20 12).signExtend 32
      else s.pc + 4

/-- Which word reports what: the table of 60_exceptions.md R160, at most one report a cycle (R169).
Every OP word reports ImmediateDecodeError by the spec's decision D9 (log 15), a word of an
unrecognised group reports DecodeError; the other two kinds never occur. -/
def Obligations.ReportByWord : Prop :=
  ∀ s : State, ∃ t, step s = .next t ∧
    let grp : BitVec 5 := s.fetch.extractLsb' 2 5
    let f3 : BitVec 3 := s.fetch.extractLsb' 12 3
    t.report =
      if grp ∉ [0b00000, 0b00100, 0b01000, 0b01100, 0b01101, 0b11001] then some .decodeError
      else if grp = 0b01100 then some .immediateDecodeError
      else if grp = 0b00000 ∧ f3 ∉ [2, 4] then some .loadError
      else if grp = 0b01000 ∧ f3 ∉ [0, 2] then some .saveError
      else none

/-- 40_cycle.md R103: a cycle yields one report or none and one Flush or none, and a Flush exactly
when the word is a STORE with selector 2 whose unmasked address lies in the window. -/
def Obligations.FlushExactlyOnPixelStore : Prop :=
  ∀ s : State, ∃ t, step s = .next t ∧
    let w := s.fetch
    let addr := s.readReg (w.extractLsb' 15 5) + (w.extractLsb' 25 7 ++ w.extractLsb' 7 5 : BitVec 12).signExtend 32
    (t.flush ≠ none ↔
      w.extractLsb' 2 5 = 0b01000 ∧ w.extractLsb' 12 3 = 2 ∧ 0x20000000 ≤ addr.toNat ∧ addr.toNat < 0x20040000)

/-- 10_state.md R10: the four items (registers, pc, memory, grid; and the fixed capacity) decide the
next state; nothing else persists, so the outputs of one cycle never reach the next (log 5). -/
def Obligations.NothingElsePersists : Prop :=
  ∀ s s' : State, sameArch s s' → step s = step s'

/-- A program cannot observe the pixel grid (20_memory.md R45, 10_state.md R20): with another grid in
the state, the next state differs in the grid and in what a Flush carries, and in nothing else. -/
def Obligations.GridNeverObserved : Prop :=
  ∀ (s t : State) (g : Grid), step s = .next t →
    ∃ t', step { s with pixels := g } = .next t' ∧
      { t' with pixels := t.pixels, flush := t.flush } = t ∧ (t'.flush = none ↔ t.flush = none)

/-- The table of 10_state.md R14: another value in a register that an instruction does not use
changes nothing but that register itself, and not even that if it is the destination. -/
def Obligations.OnlyUsedRegistersMatter : Prop :=
  ∀ (i : Instr) (s t : State) (r : RegIdx) (v : Word), r ∉ usedRegs i → exec i s = .next t →
    exec i (s.writeReg r v) = .next (if destReg i = some r then t else t.writeReg r v)

/-- General memory changes only by a byte store, or by a word store outside the window, and only in
the containing word (20_memory.md R45, 40_cycle.md R99); the grid only by a word store inside the
window, in one cell (D6, log 13), and then general memory is unchanged. -/
def Obligations.OnlyStoresChangeMemory : Prop :=
  ∀ s t : State, step s = .next t →
    let w := s.fetch
    let addr := s.readReg (w.extractLsb' 15 5) + (w.extractLsb' 25 7 ++ w.extractLsb' 7 5 : BitVec 12).signExtend 32
    let inwin := 0x20000000 ≤ addr.toNat ∧ addr.toNat < 0x20040000
    (∀ n, t.byteAt n ≠ s.byteAt n → n / 4 = s.widx addr ∧ w.extractLsb' 2 5 = 0b01000 ∧
      (w.extractLsb' 12 3 = 0 ∨ (w.extractLsb' 12 3 = 2 ∧ ¬ inwin))) ∧
    (∀ y x, t.pixelAt y x ≠ s.pixelAt y x → y = addr.extractLsb' 10 8 ∧ x = addr.extractLsb' 2 8 ∧
      w.extractLsb' 2 5 = 0b01000 ∧ w.extractLsb' 12 3 = 2 ∧ inwin ∧ memKept s t)

/-- 10_state.md R17: the pc is aligned at reset and its two low bits stay what they are under
`pc + 4`, but a JALR can give them any value: alignment is not an invariant and no bit is cleared. -/
def Obligations.PcAlignmentNotInvariant : Prop :=
  State.reset.pc.extractLsb' 0 2 = 0 ∧
  (∀ s t : State, s.fetch.extractLsb' 2 5 ≠ 0b11001 → step s = .next t →
    t.pc.extractLsb' 0 2 = s.pc.extractLsb' 0 2) ∧
  (∀ b : BitVec 2, ∃ s t : State, s.pc.extractLsb' 0 2 = 0 ∧ step s = .next t ∧ t.pc.extractLsb' 0 2 = b) ∧
  (∀ s t : State, s.fetch.extractLsb' 2 5 = 0b11001 → step s = .next t →
    t.pc = s.readReg (s.fetch.extractLsb' 15 5) + (s.fetch.extractLsb' 20 12).signExtend 32)

/-- A store into the word that the next cycle fetches is seen by that fetch (20_memory.md R52, which
the spec marks as derived). -/
def Obligations.StoreSeenByNextFetch : Prop :=
  ∀ (rs1 rs2 : RegIdx) (imm : Word) (s t : State),
    let addr := s.readReg rs1 + imm
    ¬ (0x20000000 ≤ addr.toNat ∧ addr.toNat < 0x20040000) →
    s.widx addr = s.widx (s.pc + 4) → exec (.sw rs1 rs2 imm) s = .next t →
    step t = exec (decodeWord (s.readReg rs2)) t

/-! ### Registers -/

/-- 10_state.md R12: a write of address 0 changes nothing and address 0 reads 0 after any write; a
write of another address is read back and no other register changes; a cycle changes at most one
register. (The width 32 is the spec's decision D1, log 8.) -/
def Obligations.RegisterWriteLaws : Prop :=
  (∀ (s : State) (v : Word), s.writeReg 0 v = s) ∧
  (∀ (s : State) (i : RegIdx) (v : Word), (s.writeReg i v).readReg 0 = 0) ∧
  (∀ (s : State) (i j : RegIdx) (v : Word), i ≠ 0 →
    (s.writeReg i v).readReg j = if j = i then v else s.readReg j) ∧
  (∀ s t : State, step s = .next t → ∃ rd, ∀ r, r ≠ rd → t.readReg r = s.readReg r)

/-! ### Memory -/

/-- 20_memory.md R34, the wrap property: reads, writes and the fetch at an address are those at the
address modulo the capacity (counted in bytes: D19, log 19); the word store's window test is not. -/
def Obligations.AccessWrapsAtCapacity : Prop :=
  (∀ (s : State) (a v : Word) (b : Byte),
    let m : Word := BitVec.ofNat 32 (a.toNat % s.config.memBytes)
    s.memRead4 a = s.memRead4 m ∧ s.memRead1 a = s.memRead1 m ∧ s.memWrite4 a v = s.memWrite4 m v ∧
    s.memWrite1 a b = s.memWrite1 m b ∧ ({ s with pc := a } : State).fetch = ({ s with pc := m } : State).fetch) ∧
  (∃ (s : State) (a : Word), inWindow a = true ∧ inWindow (BitVec.ofNat 32 (a.toNat % s.config.memBytes)) = false)

/-- Bits 1:0 of the address take no part in a word access, the fetch and the pixel store included
(20_memory.md R38, 40_cycle.md R93: the spec's decision D4, log 12). -/
def Obligations.WordAccessIgnoresLowBits : Prop :=
  ∀ (s : State) (a v : Word),
    let al := a &&& 0xFFFFFFFC
    s.memRead4 a = s.memRead4 al ∧ s.memWrite4 a v = s.memWrite4 al v ∧ s.pixWrite a v = s.pixWrite al v ∧
    inWindow a = inWindow al ∧ ({ s with pc := a } : State).fetch = ({ s with pc := al } : State).fetch

/-- 20_memory.md R49: a byte stored and loaded at one address comes back zero-extended with the
other three bytes of its word unchanged; a word read after a byte write sees the merged word, a byte
read after a word write its lane (the lanes: D3, log 11). Said of the instructions, at every
address, the window included (R45). -/
def Obligations.ByteRoundTripAndMixedWidths : Prop :=
  (∀ (rd rs1 rs2 : RegIdx) (imm : Word) (s : State), ∃ t u,
    exec (.sb rs1 rs2 imm) s = .next t ∧ exec (.lbu rd rs1 imm) t = .next u ∧
    regSet s u rd ((s.readReg rs2).extractLsb' 0 8 |>.zeroExtend 32) ∧
    ∀ n, n ≠ (s.masked (s.readReg rs1 + imm)).toNat → u.byteAt n = s.byteAt n) ∧
  (∀ (s : State) (a : Word) (b : Byte), ∃ b0 b1 b2 b3 : Byte,
    s.memRead4 a = b3 ++ b2 ++ b1 ++ b0 ∧
    (s.memWrite1 a b).memRead4 a =
      if a.extractLsb' 0 2 = 0 then b3 ++ b2 ++ b1 ++ b else if a.extractLsb' 0 2 = 1 then b3 ++ b2 ++ b ++ b0
      else if a.extractLsb' 0 2 = 2 then b3 ++ b ++ b1 ++ b0 else b ++ b2 ++ b1 ++ b0) ∧
  (∀ (s : State) (a a' v : Word), s.widx a = s.widx a' →
    (s.memWrite4 a v).memRead1 a' = v.extractLsb' (8 * (a'.extractLsb' 0 2).toNat) 8)

/-- The pixel window and its cells: 20_memory.md R43, R44 (the spec's decisions D17 and D6, logs 19
and 13). The window is one value of bits 31:18; the cell is the word index from the window's base,
row-major; every cell has an address. -/
def Obligations.WindowCoversGridRowMajor : Prop :=
  (∀ a : Word, inWindow a = true ↔ a.extractLsb' 18 14 = 0b00100000000000) ∧
  (∀ a : Word, inWindow a = true → pixKey (pixRow a) (pixCol a) = (a.toNat - 0x20000000) / 4) ∧
  (∀ y x : BitVec 8, ∃ a : Word, inWindow a = true ∧ pixRow a = y ∧ pixCol a = x)

/-! ### Results and frames of the instructions

Each says, for every word of the row, how it decodes, and, for every operand and every state, that
the instruction completes, what the next state holds and what it leaves alone. -/

/-- 41_arith.md R110 (OPIMM). -/
def Obligations.OpimmAddsImmediate : Prop :=
  (∀ w : Word, w &&& 0x7C = 0x10 →
    decodeWord w = .opimm (w.extractLsb' 7 5) (w.extractLsb' 15 5) ((w.extractLsb' 20 12).signExtend 32)) ∧
  (∀ (rd rs1 : RegIdx) (imm : Word) (s : State), ∃ t, exec (.opimm rd rs1 imm) s = .next t ∧
    regSet s t rd (s.readReg rs1 + imm) ∧ t.pc = s.pc + 4 ∧ t.report = none ∧ t.flush = none ∧
    memKept s t ∧ gridKept s t ∧ t.config = s.config)

/-- 41_arith.md R111 (OP); the report on every OP word is the spec's decision D9 (log 15). -/
def Obligations.OpAddsRegistersAndReports : Prop :=
  (∀ w : Word, w &&& 0x7C = 0x30 →
    decodeWord w = .op (w.extractLsb' 7 5) (w.extractLsb' 15 5) (w.extractLsb' 20 5)) ∧
  (∀ (rd rs1 rs2 : RegIdx) (s : State), ∃ t, exec (.op rd rs1 rs2) s = .next t ∧
    regSet s t rd (s.readReg rs1 + s.readReg rs2) ∧ t.pc = s.pc + 4 ∧ t.report = some .immediateDecodeError ∧
    t.flush = none ∧ memKept s t ∧ gridKept s t ∧ t.config = s.config)

/-- 40_cycle.md R98: for every word of the two arithmetic categories, whatever its selector bits and,
for OP, its bits 31:25, the destination takes the specified sum. -/
def Obligations.SelectorNeverReachesAlu : Prop :=
  ∀ (w : Word) (s : State),
    (w.extractLsb' 2 5 = 0b00100 → ∃ t, exec (decodeWord w) s = .next t ∧
      regSet s t (w.extractLsb' 7 5) (s.readReg (w.extractLsb' 15 5) + (w.extractLsb' 20 12).signExtend 32)) ∧
    (w.extractLsb' 2 5 = 0b01100 → ∃ t, exec (decodeWord w) s = .next t ∧
      regSet s t (w.extractLsb' 7 5) (s.readReg (w.extractLsb' 15 5) + s.readReg (w.extractLsb' 20 5)))

/-- 43_lui_jalr.md R140 (LUI). -/
def Obligations.LuiLoadsUpperImmediate : Prop :=
  (∀ w : Word, w &&& 0x7C = 0x34 → decodeWord w = .lui (w.extractLsb' 7 5) (w &&& 0xFFFFF000)) ∧
  (∀ (rd : RegIdx) (imm : Word) (s : State), ∃ t, exec (.lui rd imm) s = .next t ∧
    regSet s t rd imm ∧ t.pc = s.pc + 4 ∧ t.report = none ∧ t.flush = none ∧
    memKept s t ∧ gridKept s t ∧ t.config = s.config)

/-- 43_lui_jalr.md R141 (JALR): the target from the old register, the link from the pc of the start
of the cycle, no bit cleared. -/
def Obligations.JalrJumpsAndLinks : Prop :=
  (∀ w : Word, w &&& 0x7C = 0x64 →
    decodeWord w = .jalr (w.extractLsb' 7 5) (w.extractLsb' 15 5) ((w.extractLsb' 20 12).signExtend 32)) ∧
  (∀ (rd rs1 : RegIdx) (imm : Word) (s : State), ∃ t, exec (.jalr rd rs1 imm) s = .next t ∧
    regSet s t rd (s.pc + 4) ∧ t.pc = s.readReg rs1 + imm ∧ t.report = none ∧ t.flush = none ∧
    memKept s t ∧ gridKept s t ∧ t.config = s.config)

/-- 42_load_store.md R120 (LW): the containing word at the masked address, at any alignment (D4,
log 12), little-endian in its bytes (D3, log 11), inside the pixel window too. -/
def Obligations.LwLoadsContainingWord : Prop :=
  (∀ w : Word, w &&& 0x707C = 0x2000 →
    decodeWord w = .lw (w.extractLsb' 7 5) (w.extractLsb' 15 5) ((w.extractLsb' 20 12).signExtend 32)) ∧
  (∀ (rd rs1 : RegIdx) (imm : Word) (s : State), ∃ t, exec (.lw rd rs1 imm) s = .next t ∧
    (let j := (s.readReg rs1 + imm).toNat % s.config.memBytes / 4
     regSet s t rd (s.byteAt (4 * j + 3) ++ s.byteAt (4 * j + 2) ++ s.byteAt (4 * j + 1) ++ s.byteAt (4 * j))) ∧
    t.pc = s.pc + 4 ∧ t.report = none ∧ t.flush = none ∧ memKept s t ∧ gridKept s t ∧ t.config = s.config)

/-- 42_load_store.md R121 (LBU): the byte at the masked address, zero-extended (lanes: D3, log 11). -/
def Obligations.LbuLoadsZeroExtendedByte : Prop :=
  (∀ w : Word, w &&& 0x707C = 0x4000 →
    decodeWord w = .lbu (w.extractLsb' 7 5) (w.extractLsb' 15 5) ((w.extractLsb' 20 12).signExtend 32)) ∧
  (∀ (rd rs1 : RegIdx) (imm : Word) (s : State), ∃ t, exec (.lbu rd rs1 imm) s = .next t ∧
    regSet s t rd ((s.byteAt ((s.readReg rs1 + imm).toNat % s.config.memBytes)).zeroExtend 32) ∧
    t.pc = s.pc + 4 ∧ t.report = none ∧ t.flush = none ∧ memKept s t ∧ gridKept s t ∧ t.config = s.config)

/-- 42_load_store.md R122 (LDX, six selectors): the whole containing word and LoadError (the value is
the spec's decision D14, log 18; D3, D4 as for LW). -/
def Obligations.LdxLoadsWordAndReports : Prop :=
  (∀ p ∈ ldxRows.zip [0x0000, 0x1000, 0x3000, 0x5000, 0x6000, 0x7000], ∀ w : Word, w &&& 0x707C = p.2 →
    decodeWord w = p.1 (w.extractLsb' 7 5) (w.extractLsb' 15 5) ((w.extractLsb' 20 12).signExtend 32)) ∧
  (∀ mk ∈ [Instr.ldx0, Instr.ldx1, Instr.ldx3, Instr.ldx5, Instr.ldx6, Instr.ldx7],
    ∀ (rd rs1 : RegIdx) (imm : Word) (s : State), ∃ t, exec (mk rd rs1 imm) s = .next t ∧
    (let j := (s.readReg rs1 + imm).toNat % s.config.memBytes / 4
     regSet s t rd (s.byteAt (4 * j + 3) ++ s.byteAt (4 * j + 2) ++ s.byteAt (4 * j + 1) ++ s.byteAt (4 * j))) ∧
    t.pc = s.pc + 4 ∧ t.report = some .loadError ∧ t.flush = none ∧ memKept s t ∧ gridKept s t ∧ t.config = s.config)

/-- 42_load_store.md R124 (SB): the low byte of `x[rs2]` at the masked address and no other byte, no
pixel and no Flush even inside the window (lanes: D3, log 11). -/
def Obligations.SbStoresOneByte : Prop :=
  (∀ w : Word, w &&& 0x707C = 0x20 → decodeWord w = .sb (w.extractLsb' 15 5) (w.extractLsb' 20 5)
    ((w.extractLsb' 25 7 ++ w.extractLsb' 7 5 : BitVec 12).signExtend 32)) ∧
  (∀ (rs1 rs2 : RegIdx) (imm : Word) (s : State), ∃ t, exec (.sb rs1 rs2 imm) s = .next t ∧
    (∀ n, t.byteAt n = if n = (s.readReg rs1 + imm).toNat % s.config.memBytes then (s.readReg rs2).extractLsb' 0 8
      else s.byteAt n) ∧
    regsKept s t ∧ t.pc = s.pc + 4 ∧ t.report = none ∧ t.flush = none ∧ gridKept s t ∧ t.config = s.config)

/-- 42_load_store.md R125 (SW outside the window, unmasked address: D17, log 19): the four bytes of
the containing word (D4, log 12; D3, log 11) and no other byte. -/
def Obligations.SwStoresContainingWord : Prop :=
  (∀ w : Word, w &&& 0x707C = 0x2020 → decodeWord w = .sw (w.extractLsb' 15 5) (w.extractLsb' 20 5)
    ((w.extractLsb' 25 7 ++ w.extractLsb' 7 5 : BitVec 12).signExtend 32)) ∧
  (∀ (rs1 rs2 : RegIdx) (imm : Word) (s : State),
    ¬ (0x20000000 ≤ (s.readReg rs1 + imm).toNat ∧ (s.readReg rs1 + imm).toNat < 0x20040000) →
    ∃ t, exec (.sw rs1 rs2 imm) s = .next t ∧
    (∀ n, t.byteAt n = if n / 4 = (s.readReg rs1 + imm).toNat % s.config.memBytes / 4
      then (s.readReg rs2).extractLsb' (8 * (n % 4)) 8 else s.byteAt n) ∧
    regsKept s t ∧ t.pc = s.pc + 4 ∧ t.report = none ∧ t.flush = none ∧ gridKept s t ∧ t.config = s.config)

/-- 42_load_store.md R126 (SW inside the window): one cell of the grid and one Flush of the grid after
the write, general memory untouched (geometry: D6, log 13; Flush: D13, log 17). -/
def Obligations.SwStoresPixelAndFlushes : Prop :=
  ∀ (rs1 rs2 : RegIdx) (imm : Word) (s : State),
    0x20000000 ≤ (s.readReg rs1 + imm).toNat → (s.readReg rs1 + imm).toNat < 0x20040000 →
    ∃ t, exec (.sw rs1 rs2 imm) s = .next t ∧
    (∀ y x, t.pixelAt y x =
      if y = (s.readReg rs1 + imm).extractLsb' 10 8 ∧ x = (s.readReg rs1 + imm).extractLsb' 2 8 then s.readReg rs2
      else s.pixelAt y x) ∧
    t.flush = some t.pixels ∧
    memKept s t ∧ regsKept s t ∧ t.pc = s.pc + 4 ∧ t.report = none ∧ t.config = s.config

/-- 42_load_store.md R127 (STX, six selectors): SaveError, and nothing stored anywhere. -/
def Obligations.StxStoresNothingAndReports : Prop :=
  (∀ p ∈ stxRows.zip [0x1020, 0x3020, 0x4020, 0x5020, 0x6020, 0x7020], ∀ w : Word, w &&& 0x707C = p.2 →
    decodeWord w = p.1 (w.extractLsb' 15 5) (w.extractLsb' 20 5)
      ((w.extractLsb' 25 7 ++ w.extractLsb' 7 5 : BitVec 12).signExtend 32)) ∧
  (∀ mk ∈ [Instr.stx1, Instr.stx3, Instr.stx4, Instr.stx5, Instr.stx6, Instr.stx7],
    ∀ (rs1 rs2 : RegIdx) (imm : Word) (s : State), ∃ t, exec (mk rs1 rs2 imm) s = .next t ∧
    memKept s t ∧ gridKept s t ∧ t.flush = none ∧ regsKept s t ∧ t.pc = s.pc + 4 ∧ t.report = some .saveError ∧
    t.config = s.config)

/-- 44_decode_failure.md R150 (UNDEF, 26 groups): the sum as for OPIMM, and DecodeError (the spec's
decision D8, log 14). -/
def Obligations.UndefAddsAndReports : Prop :=
  (∀ p ∈ undefInstrs.zip ([0b00001, 0b00010, 0b00011, 0b00101, 0b00110, 0b00111, 0b01001, 0b01010, 0b01011, 0b01110,
      0b01111, 0b10000, 0b10001, 0b10010, 0b10011, 0b10100, 0b10101, 0b10110, 0b10111, 0b11000, 0b11010, 0b11011, 0b11100,
      0b11101, 0b11110, 0b11111] : List (BitVec 5)),
    ∀ w : Word, w.extractLsb' 2 5 = p.2 →
      decodeWord w = p.1 (w.extractLsb' 7 5) (w.extractLsb' 15 5) ((w.extractLsb' 20 12).signExtend 32)) ∧
  (∀ mk ∈ [Instr.undef00001, Instr.undef00010, Instr.undef00011, Instr.undef00101, Instr.undef00110, Instr.undef00111,
      Instr.undef01001, Instr.undef01010, Instr.undef01011, Instr.undef01110, Instr.undef01111, Instr.undef10000,
      Instr.undef10001, Instr.undef10010, Instr.undef10011, Instr.undef10100, Instr.undef10101, Instr.undef10110,
      Instr.undef10111, Instr.undef11000, Instr.undef11010, Instr.undef11011, Instr.undef11100, Instr.undef11101,
      Instr.undef11110, Instr.undef11111],
    ∀ (rd rs1 : RegIdx) (imm : Word) (s : State), ∃ t, exec (mk rd rs1 imm) s = .next t ∧
    regSet s t rd (s.readReg rs1 + imm) ∧ t.pc = s.pc + 4 ∧ t.report = some .decodeError ∧ t.flush = none ∧
    memKept s t ∧ gridKept s t ∧ t.config = s.config)

/-- A word of an unrecognised group does exactly what the OPIMM word with the same bits 31:7 does,
but for its DecodeError (30_encoding.md R65, 44_decode_failure.md R150: the spec's decision D8,
log 14). -/
def Obligations.UndefWordRunsAsOpimm : Prop :=
  ∀ (w w' : Word) (s : State),
    w.extractLsb' 2 5 ∉ ([0b00000, 0b00100, 0b01000, 0b01100, 0b01101, 0b11001] : List (BitVec 5)) →
    w'.extractLsb' 2 5 = 0b00100 → w.extractLsb' 7 25 = w'.extractLsb' 7 25 →
    ∃ t', exec (decodeWord w') s = .next t' ∧ exec (decodeWord w) s = .next { t' with report := some .decodeError }
end

