-- ==== Sys2Proof/Laws/State.lean ====
section
/-! SUPPORT. One lemma for each field under each update of the state, and the register laws. -/

namespace Sys2Proof.Machine

/-! ### finish, advance, advanceFlush -/

@[simp] theorem finish_config (s : State) (p r f) : (s.finish p r f).config = s.config := rfl
@[simp] theorem finish_regs (s : State) (p r f) : (s.finish p r f).regs = s.regs := rfl
@[simp] theorem finish_pc (s : State) (p r f) : (s.finish p r f).pc = p := rfl
@[simp] theorem finish_mem (s : State) (p r f) : (s.finish p r f).mem = s.mem := rfl
@[simp] theorem finish_pixels (s : State) (p r f) : (s.finish p r f).pixels = s.pixels := rfl
@[simp] theorem finish_report (s : State) (p r f) : (s.finish p r f).report = r := rfl
@[simp] theorem finish_flush (s : State) (p r f) : (s.finish p r f).flush = f := rfl
@[simp] theorem finish_readReg (s : State) (p r f i) : (s.finish p r f).readReg i = s.readReg i := rfl
@[simp] theorem finish_byteAt (s : State) (p r f n) : (s.finish p r f).byteAt n = s.byteAt n := rfl
@[simp] theorem finish_wordAt (s : State) (p r f n) : (s.finish p r f).wordAt n = s.wordAt n := rfl
@[simp] theorem finish_pixelAt (s : State) (p r f y x) : (s.finish p r f).pixelAt y x = s.pixelAt y x := rfl

@[simp] theorem advance_config (s : State) (r) : (s.advance r).config = s.config := rfl
@[simp] theorem advance_regs (s : State) (r) : (s.advance r).regs = s.regs := rfl
@[simp] theorem advance_pc (s : State) (r) : (s.advance r).pc = s.pc + 4 := rfl
@[simp] theorem advance_mem (s : State) (r) : (s.advance r).mem = s.mem := rfl
@[simp] theorem advance_pixels (s : State) (r) : (s.advance r).pixels = s.pixels := rfl
@[simp] theorem advance_report (s : State) (r) : (s.advance r).report = r := rfl
@[simp] theorem advance_flush (s : State) (r) : (s.advance r).flush = none := rfl
@[simp] theorem advance_readReg (s : State) (r i) : (s.advance r).readReg i = s.readReg i := rfl
@[simp] theorem advance_byteAt (s : State) (r n) : (s.advance r).byteAt n = s.byteAt n := rfl
@[simp] theorem advance_wordAt (s : State) (r n) : (s.advance r).wordAt n = s.wordAt n := rfl
@[simp] theorem advance_pixelAt (s : State) (r y x) : (s.advance r).pixelAt y x = s.pixelAt y x := rfl

@[simp] theorem advanceFlush_config (s : State) : s.advanceFlush.config = s.config := rfl
@[simp] theorem advanceFlush_regs (s : State) : s.advanceFlush.regs = s.regs := rfl
@[simp] theorem advanceFlush_pc (s : State) : s.advanceFlush.pc = s.pc + 4 := rfl
@[simp] theorem advanceFlush_mem (s : State) : s.advanceFlush.mem = s.mem := rfl
@[simp] theorem advanceFlush_pixels (s : State) : s.advanceFlush.pixels = s.pixels := rfl
@[simp] theorem advanceFlush_report (s : State) : s.advanceFlush.report = none := rfl
@[simp] theorem advanceFlush_flush (s : State) : s.advanceFlush.flush = some s.pixels := rfl
@[simp] theorem advanceFlush_readReg (s : State) (i) : s.advanceFlush.readReg i = s.readReg i := rfl
@[simp] theorem advanceFlush_byteAt (s : State) (n) : s.advanceFlush.byteAt n = s.byteAt n := rfl
@[simp] theorem advanceFlush_wordAt (s : State) (n) : s.advanceFlush.wordAt n = s.wordAt n := rfl
@[simp] theorem advanceFlush_pixelAt (s : State) (y x) : s.advanceFlush.pixelAt y x = s.pixelAt y x := rfl

/-! ### writeReg -/

@[simp] theorem writeReg_config (s : State) (i v) : (s.writeReg i v).config = s.config := by
  unfold State.writeReg; split <;> rfl
@[simp] theorem writeReg_pc (s : State) (i v) : (s.writeReg i v).pc = s.pc := by
  unfold State.writeReg; split <;> rfl
@[simp] theorem writeReg_mem (s : State) (i v) : (s.writeReg i v).mem = s.mem := by
  unfold State.writeReg; split <;> rfl
@[simp] theorem writeReg_pixels (s : State) (i v) : (s.writeReg i v).pixels = s.pixels := by
  unfold State.writeReg; split <;> rfl
@[simp] theorem writeReg_report (s : State) (i v) : (s.writeReg i v).report = s.report := by
  unfold State.writeReg; split <;> rfl
@[simp] theorem writeReg_flush (s : State) (i v) : (s.writeReg i v).flush = s.flush := by
  unfold State.writeReg; split <;> rfl
@[simp] theorem writeReg_byteAt (s : State) (i v n) : (s.writeReg i v).byteAt n = s.byteAt n := by
  simp [State.byteAt]
@[simp] theorem writeReg_wordAt (s : State) (i v n) : (s.writeReg i v).wordAt n = s.wordAt n := by
  simp [State.wordAt]
@[simp] theorem writeReg_pixelAt (s : State) (i v y x) : (s.writeReg i v).pixelAt y x = s.pixelAt y x := by
  simp [State.pixelAt]

/-! ### memWrite4, memWrite1, pixWrite -/

@[simp] theorem memWrite4_config (s : State) (a v) : (s.memWrite4 a v).config = s.config := rfl
@[simp] theorem memWrite4_regs (s : State) (a v) : (s.memWrite4 a v).regs = s.regs := rfl
@[simp] theorem memWrite4_pc (s : State) (a v) : (s.memWrite4 a v).pc = s.pc := rfl
@[simp] theorem memWrite4_mem (s : State) (a v) : (s.memWrite4 a v).mem = s.mem.writeWord (s.widx a) v := rfl
@[simp] theorem memWrite4_pixels (s : State) (a v) : (s.memWrite4 a v).pixels = s.pixels := rfl
@[simp] theorem memWrite4_report (s : State) (a v) : (s.memWrite4 a v).report = s.report := rfl
@[simp] theorem memWrite4_flush (s : State) (a v) : (s.memWrite4 a v).flush = s.flush := rfl
@[simp] theorem memWrite4_readReg (s : State) (a v i) : (s.memWrite4 a v).readReg i = s.readReg i := rfl
@[simp] theorem memWrite4_pixelAt (s : State) (a v y x) : (s.memWrite4 a v).pixelAt y x = s.pixelAt y x := rfl

@[simp] theorem memWrite1_config (s : State) (a b) : (s.memWrite1 a b).config = s.config := rfl
@[simp] theorem memWrite1_regs (s : State) (a b) : (s.memWrite1 a b).regs = s.regs := rfl
@[simp] theorem memWrite1_pc (s : State) (a b) : (s.memWrite1 a b).pc = s.pc := rfl
@[simp] theorem memWrite1_pixels (s : State) (a b) : (s.memWrite1 a b).pixels = s.pixels := rfl
@[simp] theorem memWrite1_report (s : State) (a b) : (s.memWrite1 a b).report = s.report := rfl
@[simp] theorem memWrite1_flush (s : State) (a b) : (s.memWrite1 a b).flush = s.flush := rfl
@[simp] theorem memWrite1_readReg (s : State) (a b i) : (s.memWrite1 a b).readReg i = s.readReg i := rfl
@[simp] theorem memWrite1_pixelAt (s : State) (a b y x) : (s.memWrite1 a b).pixelAt y x = s.pixelAt y x := rfl

@[simp] theorem pixWrite_config (s : State) (a v) : (s.pixWrite a v).config = s.config := rfl
@[simp] theorem pixWrite_regs (s : State) (a v) : (s.pixWrite a v).regs = s.regs := rfl
@[simp] theorem pixWrite_pc (s : State) (a v) : (s.pixWrite a v).pc = s.pc := rfl
@[simp] theorem pixWrite_mem (s : State) (a v) : (s.pixWrite a v).mem = s.mem := rfl
@[simp] theorem pixWrite_pixels (s : State) (a v) :
    (s.pixWrite a v).pixels = sparseSet unlistedPixel s.pixels (pixKey (pixRow a) (pixCol a)) v := rfl
@[simp] theorem pixWrite_report (s : State) (a v) : (s.pixWrite a v).report = s.report := rfl
@[simp] theorem pixWrite_flush (s : State) (a v) : (s.pixWrite a v).flush = s.flush := rfl
@[simp] theorem pixWrite_readReg (s : State) (a v i) : (s.pixWrite a v).readReg i = s.readReg i := rfl
@[simp] theorem pixWrite_byteAt (s : State) (a v n) : (s.pixWrite a v).byteAt n = s.byteAt n := rfl
@[simp] theorem pixWrite_wordAt (s : State) (a v n) : (s.pixWrite a v).wordAt n = s.wordAt n := rfl

/-! ### Registers (10_state.md R11, R12) -/

/-- Address 0 reads 0. -/
@[simp] theorem readReg_zero (s : State) : s.readReg 0#5 = 0#32 := rfl

/-- Writing address 0 changes nothing. -/
@[simp] theorem writeReg_zero (s : State) (v) : s.writeReg 0#5 v = s := rfl

/-- The slot of a register other than x0 tells the register. -/
theorem slot_inj {i j : RegIdx} (hi : i ≠ 0) (hj : j ≠ 0) : i.toNat - 1 = j.toNat - 1 ↔ i = j := by
  constructor
  · intro h; bv_omega
  · rintro rfl; rfl

/-- A read after a write. -/
theorem readReg_writeReg (s : State) (i j : RegIdx) (v : Word) :
    (s.writeReg i v).readReg j = if j = i ∧ j ≠ 0 then v else s.readReg j := by
  by_cases hi : i = 0
  · subst hi
    by_cases hj : j = 0#5 <;> simp [hj]
  · by_cases hj : j = 0
    · subst hj; simp
    · simp only [State.writeReg, State.readReg, hi, hj, dite_false, Vector.getElem_set, slot_inj hi hj, ne_eq,
        not_false_eq_true, and_true, eq_comm (a := i)]

/-- Two writes of one register: the later one stays. -/
theorem writeReg_writeReg_same (s : State) (i : RegIdx) (u v : Word) :
    (s.writeReg i u).writeReg i v = s.writeReg i v := by
  unfold State.writeReg
  split <;> simp

/-- Writes of two registers commute. -/
theorem writeReg_comm (s : State) {i j : RegIdx} (h : i ≠ j) (u v : Word) :
    (s.writeReg i u).writeReg j v = (s.writeReg j v).writeReg i u := by
  unfold State.writeReg
  by_cases hi : i = 0 <;> by_cases hj : j = 0 <;> simp only [hi, hj, dite_true, dite_false]
  have hs : i.toNat - 1 ≠ j.toNat - 1 := fun he => h ((slot_inj hi hj).mp he)
  rw [Vector.set_comm _ _ hs]

end Sys2Proof.Machine
end

