-- ==== Sys2Proof/Laws/Memory.lean ====
section
/-! SUPPORT. Read after write and canonical form: the lists of keys and values first, then general
memory and the pixel grid over them. -/

namespace Sys2Proof.Machine

variable {α : Type} (d : α)

/-! ### Lists of keys and values -/

theorem sparseGet_erase (l : List (Nat × α)) (a b : Nat) :
    sparseGet d (sparseErase l a) b = if b = a then d else sparseGet d l b := by
  induction l with
  | nil => simp [sparseErase, sparseGet]
  | cons c rest ih =>
    unfold sparseErase at ih ⊢
    by_cases hc : c.1 = a
    · rw [List.filter_cons_of_neg (by simp [hc]), ih]
      by_cases hb : b = a
      · simp [hb]
      · simp [hb, sparseGet, hc, Ne.symm hb]
    · rw [List.filter_cons_of_pos (by simp [hc])]
      simp only [sparseGet, ih]
      by_cases hb : c.1 = b
      · have : b ≠ a := hb ▸ hc
        simp [hb, this]
      · simp [hb]

theorem sparseGet_insert (l : List (Nat × α)) (a b : Nat) (v : α) (h : ∀ c ∈ l, c.1 ≠ a) :
    sparseGet d (sparseInsert l a v) b = if b = a then v else sparseGet d l b := by
  induction l with
  | nil => simp [sparseInsert, sparseGet, eq_comm]
  | cons c rest ih =>
    have hca : c.1 ≠ a := h c (by simp)
    have ih := ih (fun e he => h e (by simp [he]))
    unfold sparseInsert
    split
    · by_cases hb : b = a
      · simp [sparseGet, hb]
      · simp [sparseGet, hb, Ne.symm hb]
    · simp only [sparseGet, ih]
      by_cases hb : c.1 = b
      · have : b ≠ a := hb ▸ hca
        simp [hb, this]
      · simp [hb]

theorem erase_keys (l : List (Nat × α)) (a : Nat) : ∀ c ∈ sparseErase l a, c.1 ≠ a := by
  intro c hc
  have := (List.mem_filter.mp hc).2
  simpa using this

variable [DecidableEq α]

/-- A read after a write, for every list, canonical or not. -/
theorem sparseGet_set (l : List (Nat × α)) (a b : Nat) (v : α) :
    sparseGet d (sparseSet d l a v) b = if b = a then v else sparseGet d l b := by
  unfold sparseSet
  split
  · next hv => rw [sparseGet_erase, hv]
  · rw [sparseGet_insert d _ _ _ _ (erase_keys l a), sparseGet_erase]
    by_cases hb : b = a <;> simp [hb]

theorem sparseWf_cons {c : Nat × α} {rest : List (Nat × α)} :
    sparseWf d (c :: rest) = true ↔ c.2 ≠ d ∧ (∀ e ∈ rest, c.1 < e.1) ∧ sparseWf d rest = true := by
  simp [sparseWf, and_assoc]

theorem sparseWf_erase {l : List (Nat × α)} (a : Nat) (h : sparseWf d l = true) :
    sparseWf d (sparseErase l a) = true := by
  induction l with
  | nil => rfl
  | cons c rest ih =>
    rw [sparseWf_cons] at h
    unfold sparseErase at ih ⊢
    by_cases hc : c.1 = a
    · rw [List.filter_cons_of_neg (by simp [hc])]
      exact ih h.2.2
    · rw [List.filter_cons_of_pos (by simp [hc]), sparseWf_cons]
      exact ⟨h.1, fun e he => h.2.1 e (List.mem_filter.mp he).1, ih h.2.2⟩

omit [DecidableEq α] in
theorem mem_sparseInsert {l : List (Nat × α)} {a : Nat} {v : α} {e : Nat × α}
    (h : e ∈ sparseInsert l a v) : e = (a, v) ∨ e ∈ l := by
  induction l with
  | nil => simpa [sparseInsert] using h
  | cons c rest ih =>
    unfold sparseInsert at h
    split at h
    · simpa using h
    · rcases List.mem_cons.mp h with rfl | h
      · simp
      · rcases ih h with h | h <;> simp [h]

theorem sparseWf_insert {l : List (Nat × α)} {a : Nat} {v : α} (hk : ∀ c ∈ l, c.1 ≠ a) (hv : v ≠ d)
    (h : sparseWf d l = true) : sparseWf d (sparseInsert l a v) = true := by
  induction l with
  | nil => simp [sparseInsert, sparseWf, hv]
  | cons c rest ih =>
    have hc := (sparseWf_cons d).mp h
    have hca : c.1 ≠ a := hk c (by simp)
    unfold sparseInsert
    split
    · next hlt =>
      refine (sparseWf_cons d).mpr ⟨hv, ?_, h⟩
      intro e he
      rcases List.mem_cons.mp he with rfl | he
      · exact hlt
      · exact Nat.lt_trans hlt (hc.2.1 e he)
    · refine (sparseWf_cons d).mpr ⟨hc.1, ?_, ih (fun e he => hk e (by simp [he])) hc.2.2⟩
      intro e he
      rcases mem_sparseInsert he with rfl | he
      · show c.1 < a
        omega
      · exact hc.2.1 e he

/-- A write keeps the canonical form. -/
theorem sparseWf_set {l : List (Nat × α)} (a : Nat) (v : α) (h : sparseWf d l = true) :
    sparseWf d (sparseSet d l a v) = true := by
  unfold sparseSet
  split
  · exact sparseWf_erase d a h
  · next hv => exact sparseWf_insert d (erase_keys l a) hv (sparseWf_erase d a h)

/-- A write at a key below a bound keeps all keys below it. -/
theorem keysBelow_set {n : Nat} {l : List (Nat × α)} {a : Nat} (v : α) (ha : a < n) (h : keysBelow n l = true) :
    keysBelow n (sparseSet d l a v) = true := by
  have hl : ∀ c ∈ l, c.1 < n := by simpa [keysBelow] using h
  have he : ∀ c ∈ sparseErase l a, c.1 < n := fun c hc => hl c (List.mem_filter.mp hc).1
  suffices hh : ∀ c ∈ sparseSet d l a v, c.1 < n by simpa [keysBelow] using hh
  unfold sparseSet
  split
  · exact he
  · intro c hc
    rcases mem_sparseInsert hc with rfl | hc
    · exact ha
    · exact he c hc

/-! ### General memory, byte by byte -/

/-- The only addresses a word write touches are the four of the word. -/
theorem sparseGet_writeWord (m : Memory) (j n : Nat) (v : Word) :
    sparseGet unlistedByte (m.writeWord j v) n =
      if n / 4 = j then byteOfWord v (n % 4) else sparseGet unlistedByte m n := by
  simp only [Memory.writeWord, Memory.setByte, sparseGet_set]
  by_cases h : n / 4 = j
  · have hc : n = 4 * j ∨ n = 4 * j + 1 ∨ n = 4 * j + 2 ∨ n = 4 * j + 3 := by omega
    rcases hc with rfl | rfl | rfl | rfl <;> rw [if_pos h]
    · rw [if_neg (by omega), if_neg (by omega), if_neg (by omega), if_pos rfl, Nat.mul_mod_right]
    · rw [if_neg (by omega), if_neg (by omega), if_pos rfl, Nat.mul_add_mod]
    · rw [if_neg (by omega), if_pos rfl, Nat.mul_add_mod]
    · rw [if_pos rfl, Nat.mul_add_mod]
  · rw [if_neg (by omega), if_neg (by omega), if_neg (by omega), if_neg (by omega), if_neg h]

/-- The bytes of a word, put together, are the word. -/
theorem wordOfBytes_byteOfWord (v : Word) :
    wordOfBytes (byteOfWord v 0) (byteOfWord v 1) (byteOfWord v 2) (byteOfWord v 3) = v := by
  apply BitVec.eq_of_getLsbD_eq
  intro i hi
  simp only [wordOfBytes, byteOfWord, BitVec.getLsbD_append, BitVec.getLsbD_extractLsb']
  by_cases h0 : i < 8
  · simp [h0]
  by_cases h1 : i < 16
  · simp [h0, show i - 8 < 8 by omega, show 8 + (i - 8) = i by omega]
  by_cases h2 : i < 24
  · simp [h0, show ¬ i - 8 < 8 by omega, show i - 8 - 8 < 8 by omega, show 16 + (i - 8 - 8) = i by omega]
  · simp [h0, show ¬ i - 8 < 8 by omega, show ¬ i - 8 - 8 < 8 by omega, show i - 8 - 8 - 8 < 8 by omega,
      show 24 + (i - 8 - 8 - 8) = i by omega]

/-- Byte n of a word put together from bytes. -/
theorem byteOfWord_wordOfBytes (b0 b1 b2 b3 : Byte) :
    byteOfWord (wordOfBytes b0 b1 b2 b3) 0 = b0 ∧ byteOfWord (wordOfBytes b0 b1 b2 b3) 1 = b1 ∧
    byteOfWord (wordOfBytes b0 b1 b2 b3) 2 = b2 ∧ byteOfWord (wordOfBytes b0 b1 b2 b3) 3 = b3 := by
  refine ⟨?_, ?_, ?_, ?_⟩ <;>
  · apply BitVec.eq_of_getLsbD_eq
    intro i hi
    simp only [wordOfBytes, byteOfWord, BitVec.getLsbD_append, BitVec.getLsbD_extractLsb', hi, decide_true, Bool.true_and]
    simp only [Nat.mul_zero, Nat.zero_add, hi, if_true, show ¬ 8 * 1 + i < 8 by omega, show 8 * 1 + i - 8 < 8 by omega,
      show ¬ 8 * 2 + i < 8 by omega, show ¬ 8 * 2 + i - 8 < 8 by omega, show 8 * 2 + i - 8 - 8 < 8 by omega,
      show ¬ 8 * 3 + i < 8 by omega, show ¬ 8 * 3 + i - 8 < 8 by omega, show ¬ 8 * 3 + i - 8 - 8 < 8 by omega, if_false]
    try congr 1
    try omega

/-- Byte n of memory, read through its word. -/
theorem byteOfWord_readWord (m : Memory) (j n : Nat) (hn : n < 4) :
    byteOfWord (m.readWord j) n = sparseGet unlistedByte m (4 * j + n) := by
  obtain ⟨h0, h1, h2, h3⟩ := byteOfWord_wordOfBytes (sparseGet unlistedByte m (4 * j))
    (sparseGet unlistedByte m (4 * j + 1)) (sparseGet unlistedByte m (4 * j + 2)) (sparseGet unlistedByte m (4 * j + 3))
  have : n = 0 ∨ n = 1 ∨ n = 2 ∨ n = 3 := by omega
  rcases this with rfl | rfl | rfl | rfl
  · exact h0
  · exact h1
  · exact h2
  · exact h3

/-- A word read after a word write. -/
theorem readWord_writeWord (m : Memory) (i j : Nat) (v : Word) :
    (m.writeWord i v).readWord j = if j = i then v else m.readWord j := by
  unfold Memory.readWord
  simp only [sparseGet_writeWord, show 4 * j / 4 = j by omega, show (4 * j + 1) / 4 = j by omega,
    show (4 * j + 2) / 4 = j by omega, show (4 * j + 3) / 4 = j by omega, show 4 * j % 4 = 0 by omega,
    show (4 * j + 1) % 4 = 1 by omega, show (4 * j + 2) % 4 = 2 by omega, show (4 * j + 3) % 4 = 3 by omega]
  by_cases h : j = i
  · simp [h, wordOfBytes_byteOfWord]
  · simp [h]

theorem writeWord_wf {m : Memory} (j : Nat) (v : Word) (h : m.wf = true) : (m.writeWord j v).wf = true := by
  unfold Memory.wf at h ⊢
  exact sparseWf_set _ _ _ (sparseWf_set _ _ _ (sparseWf_set _ _ _ (sparseWf_set _ _ _ h)))

theorem writeWord_keysBelow {m : Memory} {n j : Nat} (v : Word) (hj : 4 * j + 3 < n) (h : keysBelow n m = true) :
    keysBelow n (m.writeWord j v) = true := by
  unfold Memory.writeWord Memory.setByte
  exact keysBelow_set _ _ hj (keysBelow_set _ _ (by omega) (keysBelow_set _ _ (by omega) (keysBelow_set _ _ (by omega) h)))

/-- The bytes of a loaded image (70_reset_and_hazards.md R193). -/
theorem sparseGet_writeWords (m : Memory) (j : Nat) (img : List Word) (n : Nat) :
    sparseGet unlistedByte (m.writeWords j img) n =
      if h : j ≤ n / 4 ∧ n / 4 - j < img.length then byteOfWord (img[n / 4 - j]'h.2) (n % 4)
      else sparseGet unlistedByte m n := by
  induction img generalizing m j with
  | nil => simp [Memory.writeWords]
  | cons v vs ih =>
    rw [Memory.writeWords, ih, sparseGet_writeWord]
    by_cases h1 : n / 4 = j
    · simp [h1]
    · by_cases h2 : j ≤ n / 4
      · have h3 : j + 1 ≤ n / 4 := by omega
        have h4 : n / 4 - j = (n / 4 - (j + 1)) + 1 := by omega
        simp only [h1, h2, h3, true_and, h4, List.length_cons, Nat.add_lt_add_iff_right, List.getElem_cons_succ,
          if_false]
      · simp [h1, h2, show ¬ j + 1 ≤ n / 4 by omega]

/-! ### Masking -/

theorem memBytes_eq (c : Config) : c.memBytes = 4 * c.memWords := by
  unfold Config.memBytes Config.memAddrBits Config.memWords
  rw [Nat.pow_add]

theorem memBytes_le (c : Config) : c.memBytes ≤ 2 ^ 32 := by
  unfold Config.memBytes Config.memAddrBits
  exact Nat.pow_le_pow_right (by omega) (by omega)

theorem masked_toNat (s : State) (a : Word) : (s.masked a).toNat = a.toNat % s.config.memBytes := by
  unfold State.masked memMask
  rw [BitVec.toNat_and, BitVec.toNat_ofNat]
  have hle := memBytes_le s.config
  have hpos : 0 < s.config.memBytes := Nat.two_pow_pos _
  rw [Nat.mod_eq_of_lt (by omega)]
  exact Nat.and_two_pow_sub_one_eq_mod _ _

theorem masked_lt (s : State) (a : Word) : (s.masked a).toNat < s.config.memBytes := by
  rw [masked_toNat]
  exact Nat.mod_lt _ (Nat.two_pow_pos _)

/-- The word index is the masked byte address divided by 4. -/
theorem widx_eq (s : State) (a : Word) : s.widx a = (s.masked a).toNat / 4 := by
  unfold State.widx
  rw [BitVec.toNat_ushiftRight, Nat.shiftRight_eq_div_pow]

/-- Every word index lies in the array: the range check of 20_memory.md R46 never fails. -/
theorem widx_lt (s : State) (a : Word) : s.widx a < s.config.memWords := by
  have := masked_lt s a
  rw [memBytes_eq] at this
  rw [widx_eq]
  omega

/-- Bits 1:0 of an address survive masking. -/
theorem lane_eq (s : State) (a : Word) : lane a = 8 * ((s.masked a).toNat % 4) := by
  unfold lane
  rw [masked_toNat, memBytes_eq, BitVec.toNat_and]
  have h : (3 : Word).toNat = 2 ^ 2 - 1 := rfl
  rw [h, Nat.and_two_pow_sub_one_eq_mod]
  have : a.toNat % (4 * s.config.memWords) % 4 = a.toNat % 4 := Nat.mod_mul_right_mod _ _ _
  omega

/-! ### Loads and stores of a state, byte by byte -/

theorem byteAt_memWrite4 (s : State) (a v : Word) (n : Nat) :
    (s.memWrite4 a v).byteAt n = if n / 4 = s.widx a then byteOfWord v (n % 4) else s.byteAt n := by
  unfold State.byteAt State.memWrite4
  exact sparseGet_writeWord s.mem (s.widx a) n v

theorem wordAt_memWrite4 (s : State) (a v : Word) (j : Nat) :
    (s.memWrite4 a v).wordAt j = if j = s.widx a then v else s.wordAt j := by
  unfold State.wordAt State.memWrite4
  exact readWord_writeWord s.mem (s.widx a) j v

/-- One lane of a word, cut out by a shift. -/
theorem setWidth_shift_lane (v : Word) (n : Nat) : (v >>> (8 * n)).setWidth 8 = byteOfWord v n := by
  apply BitVec.eq_of_getLsbD_eq
  intro i hi
  simp [byteOfWord, BitVec.getLsbD_ushiftRight, hi]

/-- A byte read is the byte at the masked address. -/
theorem memRead1_eq (s : State) (a : Word) : s.memRead1 a = s.byteAt (s.masked a).toNat := by
  unfold State.memRead1 State.memRead4 State.wordAt State.byteAt
  rw [lane_eq s a, setWidth_shift_lane, byteOfWord_readWord _ _ _ (by omega), widx_eq]
  congr 1
  omega

/-- The lanes of a word with one lane replaced (20_memory.md R42). -/
theorem byteOfWord_replace (old : Word) (b : Byte) (p n : Nat) (hp : p < 4) (hn : n < 4) :
    byteOfWord ((old &&& ~~~(0x000000FF#32 <<< (8 * p))) ||| (b.zeroExtend 32 <<< (8 * p))) n =
      if n = p then b else byteOfWord old n := by
  have hff : ∀ k, (0x000000FF#32).getLsbD k = decide (k < 8) := by
    intro k
    by_cases hk : k < 8
    · have : k = 0 ∨ k = 1 ∨ k = 2 ∨ k = 3 ∨ k = 4 ∨ k = 5 ∨ k = 6 ∨ k = 7 := by omega
      rcases this with h | h | h | h | h | h | h | h <;> subst h <;> rfl
    · have h2 : (0x000000FF#32) = (0xFF#8).setWidth 32 := rfl
      rw [h2, BitVec.getLsbD_setWidth, BitVec.getLsbD_of_ge _ _ (by omega)]
      simp [hk]
  apply BitVec.eq_of_getLsbD_eq
  intro i hi
  have h32 : 8 * n + i < 32 := by omega
  by_cases hnp : n = p
  · subst hnp
    simp [byteOfWord, hff, hi, h32]
  · simp only [byteOfWord, hnp, if_false, BitVec.getLsbD_extractLsb', hi, decide_true, Bool.true_and, BitVec.getLsbD_or,
      BitVec.getLsbD_and, BitVec.getLsbD_not, BitVec.getLsbD_shiftLeft, hff, h32, BitVec.getLsbD_setWidth]
    by_cases hlt : n < p
    · have h1 : 8 * n + i < 8 * p := by omega
      simp [h1]
    · have h1 : ¬ 8 * n + i < 8 * p := by omega
      have h2 : ¬ 8 * n + i - 8 * p < 8 := by omega
      have h3 : b.getLsbD (8 * n + i - 8 * p) = false := BitVec.getLsbD_of_ge _ _ (by omega)
      simp [h1, h2, h3]

/-- A byte store changes the byte at the masked address and no other. -/
theorem byteAt_memWrite1 (s : State) (a : Word) (b : Byte) (n : Nat) :
    (s.memWrite1 a b).byteAt n = if n = (s.masked a).toNat then b else s.byteAt n := by
  unfold State.memWrite1
  rw [byteAt_memWrite4, lane_eq s a, byteOfWord_replace _ _ _ _ (by omega) (by omega)]
  unfold State.memRead4 State.wordAt
  rw [byteOfWord_readWord _ _ _ (by omega), widx_eq]
  by_cases h : n / 4 = (s.masked a).toNat / 4
  · by_cases h2 : n = (s.masked a).toNat
    · simp [h2]
    · have h3 : ¬ n % 4 = (s.masked a).toNat % 4 := by omega
      have h4 : 4 * ((s.masked a).toNat / 4) + n % 4 = n := by omega
      simp [h, h2, h3, h4, State.byteAt]
  · have h2 : ¬ n = (s.masked a).toNat := by rintro rfl; exact h rfl
    simp [h, h2]

/-! ### The pixel grid -/

theorem pixKey_lt (row col : BitVec 8) : pixKey row col < 65536 := by
  unfold pixKey
  omega

theorem pixKey_inj {r c r' c' : BitVec 8} : pixKey r c = pixKey r' c' ↔ r = r' ∧ c = c' := by
  unfold pixKey
  constructor
  · intro h
    constructor <;> apply BitVec.eq_of_toNat_eq <;> omega
  · rintro ⟨rfl, rfl⟩; rfl

/-- A pixel write changes its own cell and no other. -/
theorem pixelAt_pixWrite (s : State) (a v : Word) (y x : BitVec 8) :
    (s.pixWrite a v).pixelAt y x = if y = pixRow a ∧ x = pixCol a then v else s.pixelAt y x := by
  unfold State.pixelAt
  rw [pixWrite_pixels, sparseGet_set]
  simp only [pixKey_inj]

/-! ### Legal states -/

theorem legal_iff (s : State) : s.legal = true ↔
    s.mem.wf = true ∧ keysBelow s.config.memBytes s.mem = true ∧ Grid.wf s.pixels = true ∧ keysBelow 65536 s.pixels = true
      ∧ (s.flush = none ∨ s.flush = some s.pixels) ∧ s.report ≠ some .writeBackError ∧ s.report ≠ some .addressingError := by
  simp [State.legal, and_assoc]

/-- The memory part of a legal state survives a word store. -/
theorem memWrite4_mem_legal (s : State) (a v : Word) (h : s.mem.wf = true) (hb : keysBelow s.config.memBytes s.mem = true) :
    (s.memWrite4 a v).mem.wf = true ∧ keysBelow s.config.memBytes (s.memWrite4 a v).mem = true := by
  refine ⟨writeWord_wf _ _ h, writeWord_keysBelow _ ?_ hb⟩
  have := widx_lt s a
  rw [memBytes_eq]
  omega

/-- The grid part of a legal state survives a pixel store. -/
theorem pixWrite_grid_legal (s : State) (a v : Word) (h : Grid.wf s.pixels = true) (hb : keysBelow 65536 s.pixels = true) :
    Grid.wf (s.pixWrite a v).pixels = true ∧ keysBelow 65536 (s.pixWrite a v).pixels = true :=
  ⟨sparseWf_set _ _ _ h, keysBelow_set _ _ (pixKey_lt _ _) hb⟩

end Sys2Proof.Machine
end

