-- ==== Sys2Proof/Laws/Decode.lean ====
section
/-! SUPPORT. The fields of an encoded word, format by format, and what well-formed immediates give
back. -/

namespace Sys2Proof

/-! ### Immediates -/

theorem fits12_iff (imm : Word) : fits12 imm = true ↔ sext12 (imm.extractLsb' 0 12) = imm := by
  simp [fits12, sext12]

theorem fitsUpper_iff (imm : Word) : fitsUpper imm = true ↔ imm.extractLsb' 0 12 = 0#12 := by
  simp [fitsUpper]

/-- The low 12 bits of a sign-extended 12-bit value. -/
theorem low12_sext12 (v : BitVec 12) : (sext12 v).extractLsb' 0 12 = v := by
  apply BitVec.eq_of_getLsbD_eq
  intro i hi
  simp only [sext12, BitVec.getLsbD_extractLsb', BitVec.getLsbD_signExtend, hi, Nat.zero_add, decide_true, Bool.true_and,
    if_true, show i < 32 by omega]

/-- Every I or S immediate fits. -/
theorem fits12_sext12 (v : BitVec 12) : fits12 (sext12 v) = true := by
  rw [fits12_iff, low12_sext12]

/-- Every U immediate fits. -/
theorem fitsUpper_immU (w : Word) : fitsUpper (immU w) = true := by
  rw [fitsUpper_iff]
  apply BitVec.eq_of_getLsbD_eq
  intro i hi
  simp only [immU, BitVec.getLsbD_extractLsb', BitVec.getLsbD_append, hi, Nat.zero_add, decide_true, Bool.true_and, if_true]

/-- The two pieces of an S immediate, put together. -/
theorem low12_split (imm : Word) : imm.extractLsb' 5 7 ++ imm.extractLsb' 0 5 = imm.extractLsb' 0 12 := by
  apply BitVec.eq_of_getLsbD_eq
  intro i hi
  simp only [BitVec.getLsbD_append, BitVec.getLsbD_extractLsb']
  by_cases h : i < 5
  · simp [h, hi]
  · simp [h, hi, show i - 5 < 7 by omega, show 5 + (i - 5) = i by omega]

/-- The upper 20 bits with a zero low part give back an immediate that fits. -/
theorem upper20_zero (imm : Word) (h : fitsUpper imm = true) : imm.extractLsb' 12 20 ++ 0#12 = imm := by
  rw [fitsUpper_iff] at h
  rw [← h]
  apply BitVec.eq_of_getLsbD_eq
  intro i hi
  simp only [BitVec.getLsbD_append, BitVec.getLsbD_extractLsb']
  by_cases h2 : i < 12
  · simp [h2]
  · simp [h2, show i - 12 < 20 by omega, show 12 + (i - 12) = i by omega]

/-! ### Fields of an encoded word -/

section Fields
variable (grp : BitVec 5) (f3 : BitVec 3) (rd rs1 rs2 : RegIdx) (imm : Word)

@[simp] theorem fieldGrp_encodeI : fieldGrp (encodeI grp f3 rd rs1 imm) = grp := by
  apply BitVec.eq_of_getLsbD_eq
  intro i hi
  simp only [fieldGrp, encodeI, BitVec.getLsbD_extractLsb', hi, decide_true, Bool.true_and]
  have hc : i = 0 ∨ i = 1 ∨ i = 2 ∨ i = 3 ∨ i = 4 := by omega
  rcases hc with rfl | rfl | rfl | rfl | rfl <;>
    (simp only [BitVec.getLsbD_append]; rfl)
@[simp] theorem fieldF3_encodeI : fieldF3 (encodeI grp f3 rd rs1 imm) = f3 := by
  apply BitVec.eq_of_getLsbD_eq
  intro i hi
  simp only [fieldF3, encodeI, BitVec.getLsbD_extractLsb', hi, decide_true, Bool.true_and]
  have hc : i = 0 ∨ i = 1 ∨ i = 2 := by omega
  rcases hc with rfl | rfl | rfl <;>
    (simp only [BitVec.getLsbD_append]; rfl)
@[simp] theorem fieldRd_encodeI : fieldRd (encodeI grp f3 rd rs1 imm) = rd := by
  apply BitVec.eq_of_getLsbD_eq
  intro i hi
  simp only [fieldRd, encodeI, BitVec.getLsbD_extractLsb', hi, decide_true, Bool.true_and]
  have hc : i = 0 ∨ i = 1 ∨ i = 2 ∨ i = 3 ∨ i = 4 := by omega
  rcases hc with rfl | rfl | rfl | rfl | rfl <;>
    (simp only [BitVec.getLsbD_append]; rfl)
@[simp] theorem fieldRs1_encodeI : fieldRs1 (encodeI grp f3 rd rs1 imm) = rs1 := by
  apply BitVec.eq_of_getLsbD_eq
  intro i hi
  simp only [fieldRs1, encodeI, BitVec.getLsbD_extractLsb', hi, decide_true, Bool.true_and]
  have hc : i = 0 ∨ i = 1 ∨ i = 2 ∨ i = 3 ∨ i = 4 := by omega
  rcases hc with rfl | rfl | rfl | rfl | rfl <;>
    (simp only [BitVec.getLsbD_append]; rfl)
@[simp] theorem fieldGrp_encodeS : fieldGrp (encodeS grp f3 rs1 rs2 imm) = grp := by
  apply BitVec.eq_of_getLsbD_eq
  intro i hi
  simp only [fieldGrp, encodeS, BitVec.getLsbD_extractLsb', hi, decide_true, Bool.true_and]
  have hc : i = 0 ∨ i = 1 ∨ i = 2 ∨ i = 3 ∨ i = 4 := by omega
  rcases hc with rfl | rfl | rfl | rfl | rfl <;>
    (simp only [BitVec.getLsbD_append]; rfl)
@[simp] theorem fieldF3_encodeS : fieldF3 (encodeS grp f3 rs1 rs2 imm) = f3 := by
  apply BitVec.eq_of_getLsbD_eq
  intro i hi
  simp only [fieldF3, encodeS, BitVec.getLsbD_extractLsb', hi, decide_true, Bool.true_and]
  have hc : i = 0 ∨ i = 1 ∨ i = 2 := by omega
  rcases hc with rfl | rfl | rfl <;>
    (simp only [BitVec.getLsbD_append]; rfl)
@[simp] theorem fieldRs1_encodeS : fieldRs1 (encodeS grp f3 rs1 rs2 imm) = rs1 := by
  apply BitVec.eq_of_getLsbD_eq
  intro i hi
  simp only [fieldRs1, encodeS, BitVec.getLsbD_extractLsb', hi, decide_true, Bool.true_and]
  have hc : i = 0 ∨ i = 1 ∨ i = 2 ∨ i = 3 ∨ i = 4 := by omega
  rcases hc with rfl | rfl | rfl | rfl | rfl <;>
    (simp only [BitVec.getLsbD_append]; rfl)
@[simp] theorem fieldRs2_encodeS : fieldRs2 (encodeS grp f3 rs1 rs2 imm) = rs2 := by
  apply BitVec.eq_of_getLsbD_eq
  intro i hi
  simp only [fieldRs2, encodeS, BitVec.getLsbD_extractLsb', hi, decide_true, Bool.true_and]
  have hc : i = 0 ∨ i = 1 ∨ i = 2 ∨ i = 3 ∨ i = 4 := by omega
  rcases hc with rfl | rfl | rfl | rfl | rfl <;>
    (simp only [BitVec.getLsbD_append]; rfl)
@[simp] theorem fieldGrp_encodeU : fieldGrp (encodeU grp rd imm) = grp := by
  apply BitVec.eq_of_getLsbD_eq
  intro i hi
  simp only [fieldGrp, encodeU, BitVec.getLsbD_extractLsb', hi, decide_true, Bool.true_and]
  have hc : i = 0 ∨ i = 1 ∨ i = 2 ∨ i = 3 ∨ i = 4 := by omega
  rcases hc with rfl | rfl | rfl | rfl | rfl <;>
    (simp only [BitVec.getLsbD_append]; rfl)
@[simp] theorem fieldRd_encodeU : fieldRd (encodeU grp rd imm) = rd := by
  apply BitVec.eq_of_getLsbD_eq
  intro i hi
  simp only [fieldRd, encodeU, BitVec.getLsbD_extractLsb', hi, decide_true, Bool.true_and]
  have hc : i = 0 ∨ i = 1 ∨ i = 2 ∨ i = 3 ∨ i = 4 := by omega
  rcases hc with rfl | rfl | rfl | rfl | rfl <;>
    (simp only [BitVec.getLsbD_append]; rfl)
@[simp] theorem fieldGrp_encodeR : fieldGrp (encodeR grp rd rs1 rs2) = grp := by
  apply BitVec.eq_of_getLsbD_eq
  intro i hi
  simp only [fieldGrp, encodeR, BitVec.getLsbD_extractLsb', hi, decide_true, Bool.true_and]
  have hc : i = 0 ∨ i = 1 ∨ i = 2 ∨ i = 3 ∨ i = 4 := by omega
  rcases hc with rfl | rfl | rfl | rfl | rfl <;>
    (simp only [BitVec.getLsbD_append]; rfl)
@[simp] theorem fieldRd_encodeR : fieldRd (encodeR grp rd rs1 rs2) = rd := by
  apply BitVec.eq_of_getLsbD_eq
  intro i hi
  simp only [fieldRd, encodeR, BitVec.getLsbD_extractLsb', hi, decide_true, Bool.true_and]
  have hc : i = 0 ∨ i = 1 ∨ i = 2 ∨ i = 3 ∨ i = 4 := by omega
  rcases hc with rfl | rfl | rfl | rfl | rfl <;>
    (simp only [BitVec.getLsbD_append]; rfl)
@[simp] theorem fieldRs1_encodeR : fieldRs1 (encodeR grp rd rs1 rs2) = rs1 := by
  apply BitVec.eq_of_getLsbD_eq
  intro i hi
  simp only [fieldRs1, encodeR, BitVec.getLsbD_extractLsb', hi, decide_true, Bool.true_and]
  have hc : i = 0 ∨ i = 1 ∨ i = 2 ∨ i = 3 ∨ i = 4 := by omega
  rcases hc with rfl | rfl | rfl | rfl | rfl <;>
    (simp only [BitVec.getLsbD_append]; rfl)
@[simp] theorem fieldRs2_encodeR : fieldRs2 (encodeR grp rd rs1 rs2) = rs2 := by
  apply BitVec.eq_of_getLsbD_eq
  intro i hi
  simp only [fieldRs2, encodeR, BitVec.getLsbD_extractLsb', hi, decide_true, Bool.true_and]
  have hc : i = 0 ∨ i = 1 ∨ i = 2 ∨ i = 3 ∨ i = 4 := by omega
  rcases hc with rfl | rfl | rfl | rfl | rfl <;>
    (simp only [BitVec.getLsbD_append]; rfl)

/-! ### Immediates of an encoded word -/

theorem top12_encodeI : (encodeI grp f3 rd rs1 imm).extractLsb' 20 12 = imm.extractLsb' 0 12 := by
  apply BitVec.eq_of_getLsbD_eq
  intro i hi
  simp only [encodeI, BitVec.getLsbD_extractLsb', hi, decide_true, Bool.true_and]
  have hc : i = 0 ∨ i = 1 ∨ i = 2 ∨ i = 3 ∨ i = 4 ∨ i = 5 ∨ i = 6 ∨ i = 7 ∨ i = 8 ∨ i = 9 ∨ i = 10 ∨ i = 11 := by omega
  rcases hc with rfl | rfl | rfl | rfl | rfl | rfl | rfl | rfl | rfl | rfl | rfl | rfl <;>
    (simp only [BitVec.getLsbD_append, BitVec.getLsbD_extractLsb']; rfl)

theorem top7_encodeS : (encodeS grp f3 rs1 rs2 imm).extractLsb' 25 7 = imm.extractLsb' 5 7 := by
  apply BitVec.eq_of_getLsbD_eq
  intro i hi
  simp only [encodeS, BitVec.getLsbD_extractLsb', hi, decide_true, Bool.true_and]
  have hc : i = 0 ∨ i = 1 ∨ i = 2 ∨ i = 3 ∨ i = 4 ∨ i = 5 ∨ i = 6 := by omega
  rcases hc with rfl | rfl | rfl | rfl | rfl | rfl | rfl <;>
    (simp only [BitVec.getLsbD_append, BitVec.getLsbD_extractLsb']; rfl)

theorem low5_encodeS : (encodeS grp f3 rs1 rs2 imm).extractLsb' 7 5 = imm.extractLsb' 0 5 := by
  apply BitVec.eq_of_getLsbD_eq
  intro i hi
  simp only [encodeS, BitVec.getLsbD_extractLsb', hi, decide_true, Bool.true_and]
  have hc : i = 0 ∨ i = 1 ∨ i = 2 ∨ i = 3 ∨ i = 4 := by omega
  rcases hc with rfl | rfl | rfl | rfl | rfl <;>
    (simp only [BitVec.getLsbD_append, BitVec.getLsbD_extractLsb']; rfl)

theorem top20_encodeU : (encodeU grp rd imm).extractLsb' 12 20 = imm.extractLsb' 12 20 := by
  apply BitVec.eq_of_getLsbD_eq
  intro i hi
  simp only [encodeU, BitVec.getLsbD_extractLsb', hi, decide_true, Bool.true_and]
  have hc : i = 0 ∨ i = 1 ∨ i = 2 ∨ i = 3 ∨ i = 4 ∨ i = 5 ∨ i = 6 ∨ i = 7 ∨ i = 8 ∨ i = 9 ∨ i = 10 ∨ i = 11 ∨ i = 12 ∨ i = 13 ∨ i = 14 ∨ i = 15 ∨ i = 16 ∨ i = 17 ∨ i = 18 ∨ i = 19 := by omega
  rcases hc with rfl | rfl | rfl | rfl | rfl | rfl | rfl | rfl | rfl | rfl | rfl | rfl | rfl | rfl | rfl | rfl | rfl | rfl | rfl | rfl <;>
    (simp only [BitVec.getLsbD_append, BitVec.getLsbD_extractLsb']; rfl)

/-- A well-formed I immediate comes back (30_encoding.md R66). -/
theorem immI_encodeI (h : fits12 imm = true) : immI (encodeI grp f3 rd rs1 imm) = imm := by
  rw [immI, top12_encodeI, (fits12_iff imm).mp h]

/-- A well-formed S immediate comes back (30_encoding.md R67). -/
theorem immS_encodeS (h : fits12 imm = true) : immS (encodeS grp f3 rs1 rs2 imm) = imm := by
  rw [immS, top7_encodeS, low5_encodeS, low12_split, (fits12_iff imm).mp h]

/-- A well-formed U immediate comes back (30_encoding.md R68). -/
theorem immU_encodeU (h : fitsUpper imm = true) : immU (encodeU grp rd imm) = imm := by
  rw [immU, top20_encodeU, upper20_zero imm h]

end Fields

/-! ### The masks of the opcode table -/

/-- The mask of a row selected by the group keeps the group field. -/
theorem and_groupMask (w : Word) : w &&& 0x7C#32 = (fieldGrp w ++ 0#2).setWidth 32 := by
  apply BitVec.eq_of_getLsbD_eq
  intro i hi
  simp only [BitVec.getLsbD_and, BitVec.getLsbD_setWidth, fieldGrp, BitVec.getLsbD_append, BitVec.getLsbD_extractLsb', hi,
    decide_true, Bool.true_and]
  interval_cases i <;> simp

/-- The mask of a row selected by group and selector keeps both fields. -/
theorem and_selectorMask (w : Word) : w &&& 0x707C#32 = (fieldF3 w ++ 0#5 ++ fieldGrp w ++ 0#2).setWidth 32 := by
  apply BitVec.eq_of_getLsbD_eq
  intro i hi
  simp only [BitVec.getLsbD_and, BitVec.getLsbD_setWidth, fieldGrp, fieldF3, BitVec.getLsbD_append, BitVec.getLsbD_extractLsb', hi,
    decide_true, Bool.true_and]
  interval_cases i <;> simp

/-- The group of a word, from the group mask of a row. -/
theorem fieldGrp_of_mask {w p : Word} (h : w &&& 0x7C = p) : fieldGrp w = p.extractLsb' 2 5 := by
  subst h
  apply BitVec.eq_of_getLsbD_eq
  intro i hi
  simp only [fieldGrp, BitVec.getLsbD_extractLsb', BitVec.getLsbD_and]
  interval_cases i <;> simp

/-- The group and the selector of a word, from the longer mask of a row. -/
theorem fields_of_selectorMask {w p : Word} (h : w &&& 0x707C = p) :
    fieldGrp w = p.extractLsb' 2 5 ∧ fieldF3 w = p.extractLsb' 12 3 := by
  subst h
  constructor <;>
  · apply BitVec.eq_of_getLsbD_eq
    intro i hi
    simp only [fieldGrp, fieldF3, BitVec.getLsbD_extractLsb', BitVec.getLsbD_and]
    interval_cases i <;> simp

/-! ### The low two bits of an encoded word -/

theorem low2_encodeI (grp : BitVec 5) (f3 : BitVec 3) (rd : RegIdx) (rs1 : RegIdx) (imm : Word) :
    (encodeI grp f3 rd rs1 imm).extractLsb' 0 2 = 3#2 := by
  apply BitVec.eq_of_getLsbD_eq
  intro i hi
  simp only [encodeI, BitVec.getLsbD_extractLsb', hi, decide_true, Bool.true_and]
  have hc : i = 0 ∨ i = 1 := by omega
  rcases hc with rfl | rfl <;>
    (simp only [BitVec.getLsbD_append, BitVec.getLsbD_extractLsb']; rfl)

theorem low2_encodeS (grp : BitVec 5) (f3 : BitVec 3) (rs1 : RegIdx) (rs2 : RegIdx) (imm : Word) :
    (encodeS grp f3 rs1 rs2 imm).extractLsb' 0 2 = 3#2 := by
  apply BitVec.eq_of_getLsbD_eq
  intro i hi
  simp only [encodeS, BitVec.getLsbD_extractLsb', hi, decide_true, Bool.true_and]
  have hc : i = 0 ∨ i = 1 := by omega
  rcases hc with rfl | rfl <;>
    (simp only [BitVec.getLsbD_append, BitVec.getLsbD_extractLsb']; rfl)

theorem low2_encodeU (grp : BitVec 5) (rd : RegIdx) (imm : Word) :
    (encodeU grp rd imm).extractLsb' 0 2 = 3#2 := by
  apply BitVec.eq_of_getLsbD_eq
  intro i hi
  simp only [encodeU, BitVec.getLsbD_extractLsb', hi, decide_true, Bool.true_and]
  have hc : i = 0 ∨ i = 1 := by omega
  rcases hc with rfl | rfl <;>
    (simp only [BitVec.getLsbD_append, BitVec.getLsbD_extractLsb']; rfl)

theorem low2_encodeR (grp : BitVec 5) (rd : RegIdx) (rs1 : RegIdx) (rs2 : RegIdx) :
    (encodeR grp rd rs1 rs2).extractLsb' 0 2 = 3#2 := by
  apply BitVec.eq_of_getLsbD_eq
  intro i hi
  simp only [encodeR, BitVec.getLsbD_extractLsb', hi, decide_true, Bool.true_and]
  have hc : i = 0 ∨ i = 1 := by omega
  rcases hc with rfl | rfl <;>
    (simp only [BitVec.getLsbD_append]; rfl)

end Sys2Proof
end

