-- ==== Sys2Proof/Laws/Exec.lean ====
section
/-! SUPPORT. What the decoder gives, group by group, and what `exec` does, row by row: the one place
where later proofs need the decoder and the meanings unfolded. -/

namespace Sys2Proof.Machine

/-! ### The decoder, by group and selector -/

theorem decodeWord_opimm {w : Word} (h : fieldGrp w = 0b00100#5) :
    decodeWord w = .opimm (fieldRd w) (fieldRs1 w) (immI w) := by
  simp [decodeWord, h]

theorem decodeWord_op {w : Word} (h : fieldGrp w = 0b01100#5) :
    decodeWord w = .op (fieldRd w) (fieldRs1 w) (fieldRs2 w) := by
  simp [decodeWord, h]

theorem decodeWord_lui {w : Word} (h : fieldGrp w = 0b01101#5) : decodeWord w = .lui (fieldRd w) (immU w) := by
  simp [decodeWord, h]

theorem decodeWord_jalr {w : Word} (h : fieldGrp w = 0b11001#5) :
    decodeWord w = .jalr (fieldRd w) (fieldRs1 w) (immI w) := by
  simp [decodeWord, h]

theorem decodeWord_lw {w : Word} (h : fieldGrp w = 0b00000#5) (hf : fieldF3 w = 2#3) :
    decodeWord w = .lw (fieldRd w) (fieldRs1 w) (immI w) := by
  simp [decodeWord, decodeLoad, h, hf]

theorem decodeWord_lbu {w : Word} (h : fieldGrp w = 0b00000#5) (hf : fieldF3 w = 4#3) :
    decodeWord w = .lbu (fieldRd w) (fieldRs1 w) (immI w) := by
  simp [decodeWord, decodeLoad, h, hf]

theorem decodeWord_sb {w : Word} (h : fieldGrp w = 0b01000#5) (hf : fieldF3 w = 0#3) :
    decodeWord w = .sb (fieldRs1 w) (fieldRs2 w) (immS w) := by
  simp [decodeWord, decodeStore, h, hf]

theorem decodeWord_sw {w : Word} (h : fieldGrp w = 0b01000#5) (hf : fieldF3 w = 2#3) :
    decodeWord w = .sw (fieldRs1 w) (fieldRs2 w) (immS w) := by
  simp [decodeWord, decodeStore, h, hf]

/-- The eight selectors. -/
theorem selector_cases (f : BitVec 3) :
    f = 0#3 ∨ f = 1#3 ∨ f = 2#3 ∨ f = 3#3 ∨ f = 4#3 ∨ f = 5#3 ∨ f = 6#3 ∨ f = 7#3 := by
  revert f; decide

theorem decodeWord_ldx {w : Word} (h : fieldGrp w = 0b00000#5) (h2 : fieldF3 w ≠ 2#3) (h4 : fieldF3 w ≠ 4#3) :
    ∃ mk ∈ ldxRows, decodeWord w = mk (fieldRd w) (fieldRs1 w) (immI w) := by
  rcases selector_cases (fieldF3 w) with hf | hf | hf | hf | hf | hf | hf | hf <;>
    first
    | exact absurd hf h2
    | exact absurd hf h4
    | simp [decodeWord, decodeLoad, h, hf, ldxRows]

theorem decodeWord_stx {w : Word} (h : fieldGrp w = 0b01000#5) (h0 : fieldF3 w ≠ 0#3) (h2 : fieldF3 w ≠ 2#3) :
    ∃ mk ∈ stxRows, decodeWord w = mk (fieldRs1 w) (fieldRs2 w) (immS w) := by
  rcases selector_cases (fieldF3 w) with hf | hf | hf | hf | hf | hf | hf | hf <;>
    first
    | exact absurd hf h0
    | exact absurd hf h2
    | simp [decodeWord, decodeStore, h, hf, stxRows]

/-- The groups that are not one of the six, with the row each decodes to. -/
theorem decodeWord_undef {w : Word} (h : recognisedGroup (fieldGrp w) = false) :
    ∃ mk ∈ undefInstrs, decodeWord w = mk (fieldRd w) (fieldRs1 w) (immI w) := by
  have hg : fieldGrp w = 1#5 ∨ fieldGrp w = 2#5 ∨ fieldGrp w = 3#5 ∨ fieldGrp w = 5#5 ∨ fieldGrp w = 6#5 ∨ fieldGrp w = 7#5
      ∨ fieldGrp w = 9#5 ∨ fieldGrp w = 10#5 ∨ fieldGrp w = 11#5 ∨ fieldGrp w = 14#5 ∨ fieldGrp w = 15#5 ∨ fieldGrp w = 16#5
      ∨ fieldGrp w = 17#5 ∨ fieldGrp w = 18#5 ∨ fieldGrp w = 19#5 ∨ fieldGrp w = 20#5 ∨ fieldGrp w = 21#5 ∨ fieldGrp w = 22#5 ∨ fieldGrp w = 23#5 ∨ fieldGrp w = 24#5 ∨ fieldGrp w = 26#5 ∨ fieldGrp w = 27#5 ∨ fieldGrp w = 28#5 ∨ fieldGrp w = 29#5 ∨ fieldGrp w = 30#5 ∨ fieldGrp w = 31#5 := by
    generalize fieldGrp w = g at h
    revert g; decide
  rcases hg with hg | hg | hg | hg | hg | hg | hg | hg | hg | hg | hg | hg | hg | hg | hg | hg | hg | hg | hg | hg | hg | hg | hg | hg | hg | hg <;> simp [decodeWord, hg, undefInstrs]

/-- A word's group is one of the six, or it is unrecognised. -/
theorem group_cases (g : BitVec 5) :
    g = 0b00000#5 ∨ g = 0b00100#5 ∨ g = 0b01000#5 ∨ g = 0b01100#5 ∨ g = 0b01101#5 ∨ g = 0b11001#5
      ∨ recognisedGroup g = false := by
  revert g; decide

/-! ### The meanings, row by row -/

@[simp] theorem exec_opimm (rd rs1 imm s) :
    exec (.opimm rd rs1 imm) s = .next ((s.writeReg rd (s.readReg rs1 + imm)).advance none) := rfl
@[simp] theorem exec_op (rd rs1 rs2 s) :
    exec (.op rd rs1 rs2) s =
      .next ((s.writeReg rd (s.readReg rs1 + s.readReg rs2)).advance (some .immediateDecodeError)) := rfl
@[simp] theorem exec_lui (rd imm s) : exec (.lui rd imm) s = .next ((s.writeReg rd imm).advance none) := rfl
@[simp] theorem exec_jalr (rd rs1 imm s) :
    exec (.jalr rd rs1 imm) s = .next ((s.writeReg rd (s.pc + 4)).finish (s.readReg rs1 + imm) none none) := rfl
@[simp] theorem exec_lw (rd rs1 imm s) :
    exec (.lw rd rs1 imm) s = .next ((s.writeReg rd (s.memRead4 (s.readReg rs1 + imm))).advance none) := rfl
@[simp] theorem exec_lbu (rd rs1 imm s) :
    exec (.lbu rd rs1 imm) s =
      .next ((s.writeReg rd ((s.memRead1 (s.readReg rs1 + imm)).zeroExtend 32)).advance none) := rfl
@[simp] theorem exec_sb (rs1 rs2 imm s) :
    exec (.sb rs1 rs2 imm) s =
      .next ((s.memWrite1 (s.readReg rs1 + imm) (lowByte (s.readReg rs2))).advance none) := rfl

theorem exec_sw_window {rs1 rs2 imm} {s : State} (h : inWindow (s.readReg rs1 + imm) = true) :
    exec (.sw rs1 rs2 imm) s = .next ((s.pixWrite (s.readReg rs1 + imm) (s.readReg rs2)).advanceFlush) :=
  if_pos h

theorem exec_sw_memory {rs1 rs2 imm} {s : State} (h : inWindow (s.readReg rs1 + imm) = false) :
    exec (.sw rs1 rs2 imm) s = .next ((s.memWrite4 (s.readReg rs1 + imm) (s.readReg rs2)).advance none) :=
  if_neg (Bool.not_eq_true _ ▸ h)

theorem exec_ldx {mk} (h : mk ∈ ldxRows) (rd rs1 imm s) :
    exec (mk rd rs1 imm) s = .next ((s.writeReg rd (s.memRead4 (s.readReg rs1 + imm))).advance (some .loadError)) := by
  simp only [ldxRows, List.mem_cons, List.not_mem_nil, or_false] at h
  rcases h with rfl | rfl | rfl | rfl | rfl | rfl <;> rfl

theorem exec_stx {mk} (h : mk ∈ stxRows) (rs1 rs2 imm s) :
    exec (mk rs1 rs2 imm) s = .next (s.advance (some .saveError)) := by
  simp only [stxRows, List.mem_cons, List.not_mem_nil, or_false] at h
  rcases h with rfl | rfl | rfl | rfl | rfl | rfl <;> rfl

theorem exec_undef {mk} (h : mk ∈ undefInstrs) (rd rs1 imm s) :
    exec (mk rd rs1 imm) s = .next ((s.writeReg rd (s.readReg rs1 + imm)).advance (some .decodeError)) := by
  simp only [undefInstrs, List.mem_cons, List.not_mem_nil, or_false] at h
  rcases h with rfl | rfl | rfl | rfl | rfl | rfl | rfl | rfl | rfl | rfl | rfl | rfl | rfl
    | rfl | rfl | rfl | rfl | rfl | rfl | rfl | rfl | rfl | rfl | rfl | rfl | rfl <;> rfl

/-- The kinds of an instruction: one of the eight single rows, or a member of one of the three
groups of rows. -/
theorem instr_cases (i : Instr) :
    (∃ rd rs1 imm, i = .opimm rd rs1 imm) ∨ (∃ rd rs1 rs2, i = .op rd rs1 rs2) ∨ (∃ rd imm, i = .lui rd imm)
      ∨ (∃ rd rs1 imm, i = .jalr rd rs1 imm) ∨ (∃ rd rs1 imm, i = .lw rd rs1 imm) ∨ (∃ rd rs1 imm, i = .lbu rd rs1 imm)
      ∨ (∃ rs1 rs2 imm, i = .sb rs1 rs2 imm) ∨ (∃ rs1 rs2 imm, i = .sw rs1 rs2 imm)
      ∨ (∃ mk ∈ ldxRows, ∃ rd rs1 imm, i = mk rd rs1 imm) ∨ (∃ mk ∈ stxRows, ∃ rs1 rs2 imm, i = mk rs1 rs2 imm)
      ∨ (∃ mk ∈ undefInstrs, ∃ rd rs1 imm, i = mk rd rs1 imm) := by
  cases i with
  | opimm rd rs1 imm => exact .inl ⟨_, _, _, rfl⟩
  | op rd rs1 rs2 => exact .inr (.inl ⟨_, _, _, rfl⟩)
  | lui rd imm => exact .inr (.inr (.inl ⟨_, _, rfl⟩))
  | jalr rd rs1 imm => exact .inr (.inr (.inr (.inl ⟨_, _, _, rfl⟩)))
  | lw rd rs1 imm => exact .inr (.inr (.inr (.inr (.inl ⟨_, _, _, rfl⟩))))
  | lbu rd rs1 imm => exact .inr (.inr (.inr (.inr (.inr (.inl ⟨_, _, _, rfl⟩)))))
  | sb rs1 rs2 imm => exact .inr (.inr (.inr (.inr (.inr (.inr (.inl ⟨_, _, _, rfl⟩))))))
  | sw rs1 rs2 imm => exact .inr (.inr (.inr (.inr (.inr (.inr (.inr (.inl ⟨_, _, _, rfl⟩)))))))
  | ldx0 rd rs1 imm => exact .inr (.inr (.inr (.inr (.inr (.inr (.inr (.inr (.inl ⟨.ldx0, by simp [ldxRows], _, _, _, rfl⟩))))))))
  | ldx1 rd rs1 imm => exact .inr (.inr (.inr (.inr (.inr (.inr (.inr (.inr (.inl ⟨.ldx1, by simp [ldxRows], _, _, _, rfl⟩))))))))
  | ldx3 rd rs1 imm => exact .inr (.inr (.inr (.inr (.inr (.inr (.inr (.inr (.inl ⟨.ldx3, by simp [ldxRows], _, _, _, rfl⟩))))))))
  | ldx5 rd rs1 imm => exact .inr (.inr (.inr (.inr (.inr (.inr (.inr (.inr (.inl ⟨.ldx5, by simp [ldxRows], _, _, _, rfl⟩))))))))
  | ldx6 rd rs1 imm => exact .inr (.inr (.inr (.inr (.inr (.inr (.inr (.inr (.inl ⟨.ldx6, by simp [ldxRows], _, _, _, rfl⟩))))))))
  | ldx7 rd rs1 imm => exact .inr (.inr (.inr (.inr (.inr (.inr (.inr (.inr (.inl ⟨.ldx7, by simp [ldxRows], _, _, _, rfl⟩))))))))
  | stx1 rs1 rs2 imm => exact .inr (.inr (.inr (.inr (.inr (.inr (.inr (.inr (.inr (.inl ⟨.stx1, by simp [stxRows], _, _, _, rfl⟩)))))))))
  | stx3 rs1 rs2 imm => exact .inr (.inr (.inr (.inr (.inr (.inr (.inr (.inr (.inr (.inl ⟨.stx3, by simp [stxRows], _, _, _, rfl⟩)))))))))
  | stx4 rs1 rs2 imm => exact .inr (.inr (.inr (.inr (.inr (.inr (.inr (.inr (.inr (.inl ⟨.stx4, by simp [stxRows], _, _, _, rfl⟩)))))))))
  | stx5 rs1 rs2 imm => exact .inr (.inr (.inr (.inr (.inr (.inr (.inr (.inr (.inr (.inl ⟨.stx5, by simp [stxRows], _, _, _, rfl⟩)))))))))
  | stx6 rs1 rs2 imm => exact .inr (.inr (.inr (.inr (.inr (.inr (.inr (.inr (.inr (.inl ⟨.stx6, by simp [stxRows], _, _, _, rfl⟩)))))))))
  | stx7 rs1 rs2 imm => exact .inr (.inr (.inr (.inr (.inr (.inr (.inr (.inr (.inr (.inl ⟨.stx7, by simp [stxRows], _, _, _, rfl⟩)))))))))
  | undef00001 rd rs1 imm => exact .inr (.inr (.inr (.inr (.inr (.inr (.inr (.inr (.inr (.inr (⟨.undef00001, by simp [undefInstrs], _, _, _, rfl⟩))))))))))
  | undef00010 rd rs1 imm => exact .inr (.inr (.inr (.inr (.inr (.inr (.inr (.inr (.inr (.inr (⟨.undef00010, by simp [undefInstrs], _, _, _, rfl⟩))))))))))
  | undef00011 rd rs1 imm => exact .inr (.inr (.inr (.inr (.inr (.inr (.inr (.inr (.inr (.inr (⟨.undef00011, by simp [undefInstrs], _, _, _, rfl⟩))))))))))
  | undef00101 rd rs1 imm => exact .inr (.inr (.inr (.inr (.inr (.inr (.inr (.inr (.inr (.inr (⟨.undef00101, by simp [undefInstrs], _, _, _, rfl⟩))))))))))
  | undef00110 rd rs1 imm => exact .inr (.inr (.inr (.inr (.inr (.inr (.inr (.inr (.inr (.inr (⟨.undef00110, by simp [undefInstrs], _, _, _, rfl⟩))))))))))
  | undef00111 rd rs1 imm => exact .inr (.inr (.inr (.inr (.inr (.inr (.inr (.inr (.inr (.inr (⟨.undef00111, by simp [undefInstrs], _, _, _, rfl⟩))))))))))
  | undef01001 rd rs1 imm => exact .inr (.inr (.inr (.inr (.inr (.inr (.inr (.inr (.inr (.inr (⟨.undef01001, by simp [undefInstrs], _, _, _, rfl⟩))))))))))
  | undef01010 rd rs1 imm => exact .inr (.inr (.inr (.inr (.inr (.inr (.inr (.inr (.inr (.inr (⟨.undef01010, by simp [undefInstrs], _, _, _, rfl⟩))))))))))
  | undef01011 rd rs1 imm => exact .inr (.inr (.inr (.inr (.inr (.inr (.inr (.inr (.inr (.inr (⟨.undef01011, by simp [undefInstrs], _, _, _, rfl⟩))))))))))
  | undef01110 rd rs1 imm => exact .inr (.inr (.inr (.inr (.inr (.inr (.inr (.inr (.inr (.inr (⟨.undef01110, by simp [undefInstrs], _, _, _, rfl⟩))))))))))
  | undef01111 rd rs1 imm => exact .inr (.inr (.inr (.inr (.inr (.inr (.inr (.inr (.inr (.inr (⟨.undef01111, by simp [undefInstrs], _, _, _, rfl⟩))))))))))
  | undef10000 rd rs1 imm => exact .inr (.inr (.inr (.inr (.inr (.inr (.inr (.inr (.inr (.inr (⟨.undef10000, by simp [undefInstrs], _, _, _, rfl⟩))))))))))
  | undef10001 rd rs1 imm => exact .inr (.inr (.inr (.inr (.inr (.inr (.inr (.inr (.inr (.inr (⟨.undef10001, by simp [undefInstrs], _, _, _, rfl⟩))))))))))
  | undef10010 rd rs1 imm => exact .inr (.inr (.inr (.inr (.inr (.inr (.inr (.inr (.inr (.inr (⟨.undef10010, by simp [undefInstrs], _, _, _, rfl⟩))))))))))
  | undef10011 rd rs1 imm => exact .inr (.inr (.inr (.inr (.inr (.inr (.inr (.inr (.inr (.inr (⟨.undef10011, by simp [undefInstrs], _, _, _, rfl⟩))))))))))
  | undef10100 rd rs1 imm => exact .inr (.inr (.inr (.inr (.inr (.inr (.inr (.inr (.inr (.inr (⟨.undef10100, by simp [undefInstrs], _, _, _, rfl⟩))))))))))
  | undef10101 rd rs1 imm => exact .inr (.inr (.inr (.inr (.inr (.inr (.inr (.inr (.inr (.inr (⟨.undef10101, by simp [undefInstrs], _, _, _, rfl⟩))))))))))
  | undef10110 rd rs1 imm => exact .inr (.inr (.inr (.inr (.inr (.inr (.inr (.inr (.inr (.inr (⟨.undef10110, by simp [undefInstrs], _, _, _, rfl⟩))))))))))
  | undef10111 rd rs1 imm => exact .inr (.inr (.inr (.inr (.inr (.inr (.inr (.inr (.inr (.inr (⟨.undef10111, by simp [undefInstrs], _, _, _, rfl⟩))))))))))
  | undef11000 rd rs1 imm => exact .inr (.inr (.inr (.inr (.inr (.inr (.inr (.inr (.inr (.inr (⟨.undef11000, by simp [undefInstrs], _, _, _, rfl⟩))))))))))
  | undef11010 rd rs1 imm => exact .inr (.inr (.inr (.inr (.inr (.inr (.inr (.inr (.inr (.inr (⟨.undef11010, by simp [undefInstrs], _, _, _, rfl⟩))))))))))
  | undef11011 rd rs1 imm => exact .inr (.inr (.inr (.inr (.inr (.inr (.inr (.inr (.inr (.inr (⟨.undef11011, by simp [undefInstrs], _, _, _, rfl⟩))))))))))
  | undef11100 rd rs1 imm => exact .inr (.inr (.inr (.inr (.inr (.inr (.inr (.inr (.inr (.inr (⟨.undef11100, by simp [undefInstrs], _, _, _, rfl⟩))))))))))
  | undef11101 rd rs1 imm => exact .inr (.inr (.inr (.inr (.inr (.inr (.inr (.inr (.inr (.inr (⟨.undef11101, by simp [undefInstrs], _, _, _, rfl⟩))))))))))
  | undef11110 rd rs1 imm => exact .inr (.inr (.inr (.inr (.inr (.inr (.inr (.inr (.inr (.inr (⟨.undef11110, by simp [undefInstrs], _, _, _, rfl⟩))))))))))
  | undef11111 rd rs1 imm => exact .inr (.inr (.inr (.inr (.inr (.inr (.inr (.inr (.inr (.inr (⟨.undef11111, by simp [undefInstrs], _, _, _, rfl⟩))))))))))

/-- Everything a meaning can do: a register write and `pc + 4`; a jump; nothing but `pc + 4`; a byte
store; a word store outside the pixel window; a pixel store inside it. -/
theorem exec_next_cases {i : Instr} {s t : State} (h : exec i s = .next t) :
    (∃ rd v r, destReg i = some rd ∧ t = (s.writeReg rd v).advance r)
      ∨ (∃ rd rs1 imm, i = .jalr rd rs1 imm ∧ t = (s.writeReg rd (s.pc + 4)).finish (s.readReg rs1 + imm) none none)
      ∨ (destReg i = none ∧ t = s.advance (some .saveError))
      ∨ (∃ rs1 rs2 imm, i = .sb rs1 rs2 imm ∧
          t = (s.memWrite1 (s.readReg rs1 + imm) (lowByte (s.readReg rs2))).advance none)
      ∨ (∃ rs1 rs2 imm, i = .sw rs1 rs2 imm ∧ inWindow (s.readReg rs1 + imm) = false ∧
          t = (s.memWrite4 (s.readReg rs1 + imm) (s.readReg rs2)).advance none)
      ∨ (∃ rs1 rs2 imm, i = .sw rs1 rs2 imm ∧ inWindow (s.readReg rs1 + imm) = true ∧
          t = (s.pixWrite (s.readReg rs1 + imm) (s.readReg rs2)).advanceFlush) := by
  rcases instr_cases i with ⟨rd, rs1, imm, rfl⟩ | ⟨rd, rs1, rs2, rfl⟩ | ⟨rd, imm, rfl⟩ | ⟨rd, rs1, imm, rfl⟩
    | ⟨rd, rs1, imm, rfl⟩ | ⟨rd, rs1, imm, rfl⟩ | ⟨rs1, rs2, imm, rfl⟩ | ⟨rs1, rs2, imm, rfl⟩
    | ⟨mk, hm, rd, rs1, imm, rfl⟩ | ⟨mk, hm, rs1, rs2, imm, rfl⟩ | ⟨mk, hm, rd, rs1, imm, rfl⟩
  · exact .inl ⟨rd, _, _, rfl, by simpa using h.symm⟩
  · exact .inl ⟨rd, _, _, rfl, by simpa using h.symm⟩
  · exact .inl ⟨rd, _, _, rfl, by simpa using h.symm⟩
  · exact .inr (.inl ⟨rd, rs1, imm, rfl, by simpa using h.symm⟩)
  · exact .inl ⟨rd, _, _, rfl, by simpa using h.symm⟩
  · exact .inl ⟨rd, _, _, rfl, by simpa using h.symm⟩
  · exact .inr (.inr (.inr (.inl ⟨rs1, rs2, imm, rfl, by simpa using h.symm⟩)))
  · by_cases hw : inWindow (s.readReg rs1 + imm) = true
    · rw [exec_sw_window hw] at h
      exact .inr (.inr (.inr (.inr (.inr ⟨rs1, rs2, imm, rfl, hw, by simpa using h.symm⟩))))
    · rw [exec_sw_memory (by simpa using hw)] at h
      exact .inr (.inr (.inr (.inr (.inl ⟨rs1, rs2, imm, rfl, by simpa using hw, by simpa using h.symm⟩))))
  · rw [exec_ldx hm] at h
    refine .inl ⟨rd, _, _, ?_, by simpa using h.symm⟩
    simp only [ldxRows, List.mem_cons, List.not_mem_nil, or_false] at hm
    rcases hm with rfl | rfl | rfl | rfl | rfl | rfl <;> rfl
  · rw [exec_stx hm] at h
    refine .inr (.inr (.inl ⟨?_, by simpa using h.symm⟩))
    simp only [stxRows, List.mem_cons, List.not_mem_nil, or_false] at hm
    rcases hm with rfl | rfl | rfl | rfl | rfl | rfl <;> rfl
  · rw [exec_undef hm] at h
    refine .inl ⟨rd, _, _, ?_, by simpa using h.symm⟩
    simp only [undefInstrs, List.mem_cons, List.not_mem_nil, or_false] at hm
    rcases hm with rfl | rfl | rfl | rfl | rfl | rfl | rfl | rfl | rfl | rfl | rfl | rfl | rfl
    | rfl | rfl | rfl | rfl | rfl | rfl | rfl | rfl | rfl | rfl | rfl | rfl | rfl <;> rfl

/-! ### The step -/

theorem step_eq (s : State) : step s = exec (decodeWord s.fetch) s := rfl

/-- Everything a step can do, by the fetched word: the one inversion that later proofs need. -/
theorem step_cases (s : State) :
    let w := s.fetch
    let a := s.readReg (fieldRs1 w)
    let b := s.readReg (fieldRs2 w)
    (fieldGrp w = 0b00100#5 ∧ step s = .next ((s.writeReg (fieldRd w) (a + immI w)).advance none)) ∨
    (fieldGrp w = 0b01100#5 ∧ step s = .next ((s.writeReg (fieldRd w) (a + b)).advance (some .immediateDecodeError))) ∨
    (fieldGrp w = 0b01101#5 ∧ step s = .next ((s.writeReg (fieldRd w) (immU w)).advance none)) ∨
    (fieldGrp w = 0b11001#5 ∧ step s = .next ((s.writeReg (fieldRd w) (s.pc + 4)).finish (a + immI w) none none)) ∨
    (fieldGrp w = 0b00000#5 ∧ fieldF3 w = 2#3 ∧
      step s = .next ((s.writeReg (fieldRd w) (s.memRead4 (a + immI w))).advance none)) ∨
    (fieldGrp w = 0b00000#5 ∧ fieldF3 w = 4#3 ∧
      step s = .next ((s.writeReg (fieldRd w) ((s.memRead1 (a + immI w)).zeroExtend 32)).advance none)) ∨
    (fieldGrp w = 0b00000#5 ∧ fieldF3 w ≠ 2#3 ∧ fieldF3 w ≠ 4#3 ∧
      step s = .next ((s.writeReg (fieldRd w) (s.memRead4 (a + immI w))).advance (some .loadError))) ∨
    (fieldGrp w = 0b01000#5 ∧ fieldF3 w = 0#3 ∧ step s = .next ((s.memWrite1 (a + immS w) (lowByte b)).advance none)) ∨
    (fieldGrp w = 0b01000#5 ∧ fieldF3 w = 2#3 ∧ inWindow (a + immS w) = true ∧
      step s = .next ((s.pixWrite (a + immS w) b).advanceFlush)) ∨
    (fieldGrp w = 0b01000#5 ∧ fieldF3 w = 2#3 ∧ inWindow (a + immS w) = false ∧
      step s = .next ((s.memWrite4 (a + immS w) b).advance none)) ∨
    (fieldGrp w = 0b01000#5 ∧ fieldF3 w ≠ 0#3 ∧ fieldF3 w ≠ 2#3 ∧ step s = .next (s.advance (some .saveError))) ∨
    (recognisedGroup (fieldGrp w) = false ∧
      step s = .next ((s.writeReg (fieldRd w) (a + immI w)).advance (some .decodeError))) := by
  intro w a b
  simp only [w, a, b]
  rw [step_eq]
  rcases group_cases (fieldGrp s.fetch) with h | h | h | h | h | h | h
  · by_cases h2 : fieldF3 s.fetch = 2#3
    · rw [decodeWord_lw h h2]; simp [h, h2]
    · by_cases h4 : fieldF3 s.fetch = 4#3
      · rw [decodeWord_lbu h h4]; simp [h, h4]
      · obtain ⟨mk, hm, he⟩ := decodeWord_ldx h h2 h4
        rw [he, exec_ldx hm]; simp [h, h2, h4]
  · rw [decodeWord_opimm h]; simp [h]
  · by_cases h0 : fieldF3 s.fetch = 0#3
    · rw [decodeWord_sb h h0]; simp [h, h0]
    · by_cases h2 : fieldF3 s.fetch = 2#3
      · rw [decodeWord_sw h h2]
        cases hw : inWindow (s.readReg (fieldRs1 s.fetch) + immS s.fetch)
        · rw [exec_sw_memory hw]; simp [h, h2]
        · rw [exec_sw_window hw]; simp [h, h2]
      · obtain ⟨mk, hm, he⟩ := decodeWord_stx h h0 h2
        rw [he, exec_stx hm]; simp [h, h0, h2]
  · rw [decodeWord_op h]; simp [h]
  · rw [decodeWord_lui h]; simp [h]
  · rw [decodeWord_jalr h]; simp [h]
  · obtain ⟨mk, hm, he⟩ := decodeWord_undef h
    rw [he, exec_undef hm]
    simp [h]

/-- The window test as bounds on the unmasked address (20_memory.md R43). -/
theorem inWindow_iff (a : Word) : inWindow a = true ↔ (0x20000000 ≤ a.toNat ∧ a.toNat < 0x20040000) := by
  simp [inWindow, pixBase, pixLimit, BitVec.le_def, BitVec.lt_def]

/-- An unrecognised group is none of the six. -/
theorem not_recognised {g : BitVec 5} (h : recognisedGroup g = false) :
    g ≠ 0b00000#5 ∧ g ≠ 0b00100#5 ∧ g ≠ 0b01000#5 ∧ g ≠ 0b01100#5 ∧ g ≠ 0b01101#5 ∧ g ≠ 0b11001#5 := by
  revert g; decide

/-- A word stored at the pc is the word fetched. -/
theorem fetch_memWrite4_pc (s : State) (v : Word) : (s.memWrite4 s.pc v).fetch = v := by
  unfold State.fetch State.memRead4
  rw [wordAt_memWrite4]
  exact if_pos rfl

/-! ### A register write passes through every other update -/

theorem writeReg_finish (s : State) (r v p q f) : (s.writeReg r v).finish p q f = (s.finish p q f).writeReg r v := by
  unfold State.writeReg; split <;> rfl
theorem writeReg_advance (s : State) (r v q) : (s.writeReg r v).advance q = (s.advance q).writeReg r v := by
  unfold State.writeReg; split <;> rfl
theorem writeReg_advanceFlush (s : State) (r v) : (s.writeReg r v).advanceFlush = s.advanceFlush.writeReg r v := by
  unfold State.writeReg; split <;> rfl
theorem writeReg_memWrite4 (s : State) (r v a w) : (s.writeReg r v).memWrite4 a w = (s.memWrite4 a w).writeReg r v := by
  unfold State.writeReg; split <;> rfl
theorem writeReg_memWrite1 (s : State) (r v a w) : (s.writeReg r v).memWrite1 a w = (s.memWrite1 a w).writeReg r v := by
  unfold State.writeReg; split <;> rfl
theorem writeReg_pixWrite (s : State) (r v a w) : (s.writeReg r v).pixWrite a w = (s.pixWrite a w).writeReg r v := by
  unfold State.writeReg; split <;> rfl
theorem writeReg_memRead4 (s : State) (r v a) : (s.writeReg r v).memRead4 a = s.memRead4 a := by
  unfold State.writeReg; split <;> rfl
theorem writeReg_memRead1 (s : State) (r v a) : (s.writeReg r v).memRead1 a = s.memRead1 a := by
  unfold State.writeReg; split <;> rfl

end Sys2Proof.Machine
end

