-- ==== Sys2Proof/Laws/PerInstr.lean ====
section
/-! SUPPORT. Family RowMatch: the word of an instruction lies in the instruction's own row of the
opcode table and carries 0b11 in bits 1:0 (30_encoding.md R71, R74). -/

namespace Sys2Proof.Laws.RowMatch

/-- The word of `i` is in the row named after `i`, with `w[1:0]` = 0b11. -/
def Statement (i : Instr) : Prop :=
  (∃ r ∈ opcodeTable, r.mnemonic = i.mnemonic ∧ r.hits (encode i) = true) ∧ (encode i).extractLsb' 0 2 = 3#2

/-- A row with the group mask, by the group of the word. -/
theorem hits_group {m : String} {p w : Word} (h : (fieldGrp w ++ 0#2).setWidth 32 = p) :
    (⟨m, 0x7C, p⟩ : OpcodeRow).hits w = true := by
  show (w &&& 0x7C#32 == p) = true
  rw [and_groupMask, h, beq_self_eq_true]

/-- A row with the group and selector mask, by the two fields of the word. -/
theorem hits_selector {m : String} {p w : Word} (h : (fieldF3 w ++ 0#5 ++ fieldGrp w ++ 0#2).setWidth 32 = p) :
    (⟨m, 0x707C, p⟩ : OpcodeRow).hits w = true := by
  show (w &&& 0x707C#32 == p) = true
  rw [and_selectorMask, h, beq_self_eq_true]

theorem opimm (rd : RegIdx) (rs1 : RegIdx) (imm : Word) : Statement (.opimm rd rs1 imm) :=
  ⟨⟨⟨"OPIMM", 0x7C, 0x10⟩, by decide, rfl, hits_group (by simp only [encode, fieldGrp_encodeI]; rfl)⟩, low2_encodeI ..⟩
theorem op (rd : RegIdx) (rs1 : RegIdx) (rs2 : RegIdx) : Statement (.op rd rs1 rs2) :=
  ⟨⟨⟨"OP", 0x7C, 0x30⟩, by decide, rfl, hits_group (by simp only [encode, fieldGrp_encodeR]; rfl)⟩, low2_encodeR ..⟩
theorem lui (rd : RegIdx) (imm : Word) : Statement (.lui rd imm) :=
  ⟨⟨⟨"LUI", 0x7C, 0x34⟩, by decide, rfl, hits_group (by simp only [encode, fieldGrp_encodeU]; rfl)⟩, low2_encodeU ..⟩
theorem jalr (rd : RegIdx) (rs1 : RegIdx) (imm : Word) : Statement (.jalr rd rs1 imm) :=
  ⟨⟨⟨"JALR", 0x7C, 0x64⟩, by decide, rfl, hits_group (by simp only [encode, fieldGrp_encodeI]; rfl)⟩, low2_encodeI ..⟩
theorem lw (rd : RegIdx) (rs1 : RegIdx) (imm : Word) : Statement (.lw rd rs1 imm) :=
  ⟨⟨⟨"LW", 0x707C, 0x2000⟩, by decide, rfl, hits_selector (by simp only [encode, fieldF3_encodeI, fieldGrp_encodeI]; rfl)⟩, low2_encodeI ..⟩
theorem lbu (rd : RegIdx) (rs1 : RegIdx) (imm : Word) : Statement (.lbu rd rs1 imm) :=
  ⟨⟨⟨"LBU", 0x707C, 0x4000⟩, by decide, rfl, hits_selector (by simp only [encode, fieldF3_encodeI, fieldGrp_encodeI]; rfl)⟩, low2_encodeI ..⟩
theorem ldx0 (rd : RegIdx) (rs1 : RegIdx) (imm : Word) : Statement (.ldx0 rd rs1 imm) :=
  ⟨⟨⟨"LDX.0", 0x707C, 0x0000⟩, by decide, rfl, hits_selector (by simp only [encode, fieldF3_encodeI, fieldGrp_encodeI]; rfl)⟩, low2_encodeI ..⟩
theorem ldx1 (rd : RegIdx) (rs1 : RegIdx) (imm : Word) : Statement (.ldx1 rd rs1 imm) :=
  ⟨⟨⟨"LDX.1", 0x707C, 0x1000⟩, by decide, rfl, hits_selector (by simp only [encode, fieldF3_encodeI, fieldGrp_encodeI]; rfl)⟩, low2_encodeI ..⟩
theorem ldx3 (rd : RegIdx) (rs1 : RegIdx) (imm : Word) : Statement (.ldx3 rd rs1 imm) :=
  ⟨⟨⟨"LDX.3", 0x707C, 0x3000⟩, by decide, rfl, hits_selector (by simp only [encode, fieldF3_encodeI, fieldGrp_encodeI]; rfl)⟩, low2_encodeI ..⟩
theorem ldx5 (rd : RegIdx) (rs1 : RegIdx) (imm : Word) : Statement (.ldx5 rd rs1 imm) :=
  ⟨⟨⟨"LDX.5", 0x707C, 0x5000⟩, by decide, rfl, hits_selector (by simp only [encode, fieldF3_encodeI, fieldGrp_encodeI]; rfl)⟩, low2_encodeI ..⟩
theorem ldx6 (rd : RegIdx) (rs1 : RegIdx) (imm : Word) : Statement (.ldx6 rd rs1 imm) :=
  ⟨⟨⟨"LDX.6", 0x707C, 0x6000⟩, by decide, rfl, hits_selector (by simp only [encode, fieldF3_encodeI, fieldGrp_encodeI]; rfl)⟩, low2_encodeI ..⟩
theorem ldx7 (rd : RegIdx) (rs1 : RegIdx) (imm : Word) : Statement (.ldx7 rd rs1 imm) :=
  ⟨⟨⟨"LDX.7", 0x707C, 0x7000⟩, by decide, rfl, hits_selector (by simp only [encode, fieldF3_encodeI, fieldGrp_encodeI]; rfl)⟩, low2_encodeI ..⟩
theorem sb (rs1 : RegIdx) (rs2 : RegIdx) (imm : Word) : Statement (.sb rs1 rs2 imm) :=
  ⟨⟨⟨"SB", 0x707C, 0x0020⟩, by decide, rfl, hits_selector (by simp only [encode, fieldF3_encodeS, fieldGrp_encodeS]; rfl)⟩, low2_encodeS ..⟩
theorem sw (rs1 : RegIdx) (rs2 : RegIdx) (imm : Word) : Statement (.sw rs1 rs2 imm) :=
  ⟨⟨⟨"SW", 0x707C, 0x2020⟩, by decide, rfl, hits_selector (by simp only [encode, fieldF3_encodeS, fieldGrp_encodeS]; rfl)⟩, low2_encodeS ..⟩
theorem stx1 (rs1 : RegIdx) (rs2 : RegIdx) (imm : Word) : Statement (.stx1 rs1 rs2 imm) :=
  ⟨⟨⟨"STX.1", 0x707C, 0x1020⟩, by decide, rfl, hits_selector (by simp only [encode, fieldF3_encodeS, fieldGrp_encodeS]; rfl)⟩, low2_encodeS ..⟩
theorem stx3 (rs1 : RegIdx) (rs2 : RegIdx) (imm : Word) : Statement (.stx3 rs1 rs2 imm) :=
  ⟨⟨⟨"STX.3", 0x707C, 0x3020⟩, by decide, rfl, hits_selector (by simp only [encode, fieldF3_encodeS, fieldGrp_encodeS]; rfl)⟩, low2_encodeS ..⟩
theorem stx4 (rs1 : RegIdx) (rs2 : RegIdx) (imm : Word) : Statement (.stx4 rs1 rs2 imm) :=
  ⟨⟨⟨"STX.4", 0x707C, 0x4020⟩, by decide, rfl, hits_selector (by simp only [encode, fieldF3_encodeS, fieldGrp_encodeS]; rfl)⟩, low2_encodeS ..⟩
theorem stx5 (rs1 : RegIdx) (rs2 : RegIdx) (imm : Word) : Statement (.stx5 rs1 rs2 imm) :=
  ⟨⟨⟨"STX.5", 0x707C, 0x5020⟩, by decide, rfl, hits_selector (by simp only [encode, fieldF3_encodeS, fieldGrp_encodeS]; rfl)⟩, low2_encodeS ..⟩
theorem stx6 (rs1 : RegIdx) (rs2 : RegIdx) (imm : Word) : Statement (.stx6 rs1 rs2 imm) :=
  ⟨⟨⟨"STX.6", 0x707C, 0x6020⟩, by decide, rfl, hits_selector (by simp only [encode, fieldF3_encodeS, fieldGrp_encodeS]; rfl)⟩, low2_encodeS ..⟩
theorem stx7 (rs1 : RegIdx) (rs2 : RegIdx) (imm : Word) : Statement (.stx7 rs1 rs2 imm) :=
  ⟨⟨⟨"STX.7", 0x707C, 0x7020⟩, by decide, rfl, hits_selector (by simp only [encode, fieldF3_encodeS, fieldGrp_encodeS]; rfl)⟩, low2_encodeS ..⟩
theorem undef00001 (rd : RegIdx) (rs1 : RegIdx) (imm : Word) : Statement (.undef00001 rd rs1 imm) :=
  ⟨⟨⟨"UNDEF.00001", 0x7C, 0x04⟩, by decide, rfl, hits_group (by simp only [encode, fieldGrp_encodeI]; rfl)⟩, low2_encodeI ..⟩
theorem undef00010 (rd : RegIdx) (rs1 : RegIdx) (imm : Word) : Statement (.undef00010 rd rs1 imm) :=
  ⟨⟨⟨"UNDEF.00010", 0x7C, 0x08⟩, by decide, rfl, hits_group (by simp only [encode, fieldGrp_encodeI]; rfl)⟩, low2_encodeI ..⟩
theorem undef00011 (rd : RegIdx) (rs1 : RegIdx) (imm : Word) : Statement (.undef00011 rd rs1 imm) :=
  ⟨⟨⟨"UNDEF.00011", 0x7C, 0x0C⟩, by decide, rfl, hits_group (by simp only [encode, fieldGrp_encodeI]; rfl)⟩, low2_encodeI ..⟩
theorem undef00101 (rd : RegIdx) (rs1 : RegIdx) (imm : Word) : Statement (.undef00101 rd rs1 imm) :=
  ⟨⟨⟨"UNDEF.00101", 0x7C, 0x14⟩, by decide, rfl, hits_group (by simp only [encode, fieldGrp_encodeI]; rfl)⟩, low2_encodeI ..⟩
theorem undef00110 (rd : RegIdx) (rs1 : RegIdx) (imm : Word) : Statement (.undef00110 rd rs1 imm) :=
  ⟨⟨⟨"UNDEF.00110", 0x7C, 0x18⟩, by decide, rfl, hits_group (by simp only [encode, fieldGrp_encodeI]; rfl)⟩, low2_encodeI ..⟩
theorem undef00111 (rd : RegIdx) (rs1 : RegIdx) (imm : Word) : Statement (.undef00111 rd rs1 imm) :=
  ⟨⟨⟨"UNDEF.00111", 0x7C, 0x1C⟩, by decide, rfl, hits_group (by simp only [encode, fieldGrp_encodeI]; rfl)⟩, low2_encodeI ..⟩
theorem undef01001 (rd : RegIdx) (rs1 : RegIdx) (imm : Word) : Statement (.undef01001 rd rs1 imm) :=
  ⟨⟨⟨"UNDEF.01001", 0x7C, 0x24⟩, by decide, rfl, hits_group (by simp only [encode, fieldGrp_encodeI]; rfl)⟩, low2_encodeI ..⟩
theorem undef01010 (rd : RegIdx) (rs1 : RegIdx) (imm : Word) : Statement (.undef01010 rd rs1 imm) :=
  ⟨⟨⟨"UNDEF.01010", 0x7C, 0x28⟩, by decide, rfl, hits_group (by simp only [encode, fieldGrp_encodeI]; rfl)⟩, low2_encodeI ..⟩
theorem undef01011 (rd : RegIdx) (rs1 : RegIdx) (imm : Word) : Statement (.undef01011 rd rs1 imm) :=
  ⟨⟨⟨"UNDEF.01011", 0x7C, 0x2C⟩, by decide, rfl, hits_group (by simp only [encode, fieldGrp_encodeI]; rfl)⟩, low2_encodeI ..⟩
theorem undef01110 (rd : RegIdx) (rs1 : RegIdx) (imm : Word) : Statement (.undef01110 rd rs1 imm) :=
  ⟨⟨⟨"UNDEF.01110", 0x7C, 0x38⟩, by decide, rfl, hits_group (by simp only [encode, fieldGrp_encodeI]; rfl)⟩, low2_encodeI ..⟩
theorem undef01111 (rd : RegIdx) (rs1 : RegIdx) (imm : Word) : Statement (.undef01111 rd rs1 imm) :=
  ⟨⟨⟨"UNDEF.01111", 0x7C, 0x3C⟩, by decide, rfl, hits_group (by simp only [encode, fieldGrp_encodeI]; rfl)⟩, low2_encodeI ..⟩
theorem undef10000 (rd : RegIdx) (rs1 : RegIdx) (imm : Word) : Statement (.undef10000 rd rs1 imm) :=
  ⟨⟨⟨"UNDEF.10000", 0x7C, 0x40⟩, by decide, rfl, hits_group (by simp only [encode, fieldGrp_encodeI]; rfl)⟩, low2_encodeI ..⟩
theorem undef10001 (rd : RegIdx) (rs1 : RegIdx) (imm : Word) : Statement (.undef10001 rd rs1 imm) :=
  ⟨⟨⟨"UNDEF.10001", 0x7C, 0x44⟩, by decide, rfl, hits_group (by simp only [encode, fieldGrp_encodeI]; rfl)⟩, low2_encodeI ..⟩
theorem undef10010 (rd : RegIdx) (rs1 : RegIdx) (imm : Word) : Statement (.undef10010 rd rs1 imm) :=
  ⟨⟨⟨"UNDEF.10010", 0x7C, 0x48⟩, by decide, rfl, hits_group (by simp only [encode, fieldGrp_encodeI]; rfl)⟩, low2_encodeI ..⟩
theorem undef10011 (rd : RegIdx) (rs1 : RegIdx) (imm : Word) : Statement (.undef10011 rd rs1 imm) :=
  ⟨⟨⟨"UNDEF.10011", 0x7C, 0x4C⟩, by decide, rfl, hits_group (by simp only [encode, fieldGrp_encodeI]; rfl)⟩, low2_encodeI ..⟩
theorem undef10100 (rd : RegIdx) (rs1 : RegIdx) (imm : Word) : Statement (.undef10100 rd rs1 imm) :=
  ⟨⟨⟨"UNDEF.10100", 0x7C, 0x50⟩, by decide, rfl, hits_group (by simp only [encode, fieldGrp_encodeI]; rfl)⟩, low2_encodeI ..⟩
theorem undef10101 (rd : RegIdx) (rs1 : RegIdx) (imm : Word) : Statement (.undef10101 rd rs1 imm) :=
  ⟨⟨⟨"UNDEF.10101", 0x7C, 0x54⟩, by decide, rfl, hits_group (by simp only [encode, fieldGrp_encodeI]; rfl)⟩, low2_encodeI ..⟩
theorem undef10110 (rd : RegIdx) (rs1 : RegIdx) (imm : Word) : Statement (.undef10110 rd rs1 imm) :=
  ⟨⟨⟨"UNDEF.10110", 0x7C, 0x58⟩, by decide, rfl, hits_group (by simp only [encode, fieldGrp_encodeI]; rfl)⟩, low2_encodeI ..⟩
theorem undef10111 (rd : RegIdx) (rs1 : RegIdx) (imm : Word) : Statement (.undef10111 rd rs1 imm) :=
  ⟨⟨⟨"UNDEF.10111", 0x7C, 0x5C⟩, by decide, rfl, hits_group (by simp only [encode, fieldGrp_encodeI]; rfl)⟩, low2_encodeI ..⟩
theorem undef11000 (rd : RegIdx) (rs1 : RegIdx) (imm : Word) : Statement (.undef11000 rd rs1 imm) :=
  ⟨⟨⟨"UNDEF.11000", 0x7C, 0x60⟩, by decide, rfl, hits_group (by simp only [encode, fieldGrp_encodeI]; rfl)⟩, low2_encodeI ..⟩
theorem undef11010 (rd : RegIdx) (rs1 : RegIdx) (imm : Word) : Statement (.undef11010 rd rs1 imm) :=
  ⟨⟨⟨"UNDEF.11010", 0x7C, 0x68⟩, by decide, rfl, hits_group (by simp only [encode, fieldGrp_encodeI]; rfl)⟩, low2_encodeI ..⟩
theorem undef11011 (rd : RegIdx) (rs1 : RegIdx) (imm : Word) : Statement (.undef11011 rd rs1 imm) :=
  ⟨⟨⟨"UNDEF.11011", 0x7C, 0x6C⟩, by decide, rfl, hits_group (by simp only [encode, fieldGrp_encodeI]; rfl)⟩, low2_encodeI ..⟩
theorem undef11100 (rd : RegIdx) (rs1 : RegIdx) (imm : Word) : Statement (.undef11100 rd rs1 imm) :=
  ⟨⟨⟨"UNDEF.11100", 0x7C, 0x70⟩, by decide, rfl, hits_group (by simp only [encode, fieldGrp_encodeI]; rfl)⟩, low2_encodeI ..⟩
theorem undef11101 (rd : RegIdx) (rs1 : RegIdx) (imm : Word) : Statement (.undef11101 rd rs1 imm) :=
  ⟨⟨⟨"UNDEF.11101", 0x7C, 0x74⟩, by decide, rfl, hits_group (by simp only [encode, fieldGrp_encodeI]; rfl)⟩, low2_encodeI ..⟩
theorem undef11110 (rd : RegIdx) (rs1 : RegIdx) (imm : Word) : Statement (.undef11110 rd rs1 imm) :=
  ⟨⟨⟨"UNDEF.11110", 0x7C, 0x78⟩, by decide, rfl, hits_group (by simp only [encode, fieldGrp_encodeI]; rfl)⟩, low2_encodeI ..⟩
theorem undef11111 (rd : RegIdx) (rs1 : RegIdx) (imm : Word) : Statement (.undef11111 rd rs1 imm) :=
  ⟨⟨⟨"UNDEF.11111", 0x7C, 0x7C⟩, by decide, rfl, hits_group (by simp only [encode, fieldGrp_encodeI]; rfl)⟩, low2_encodeI ..⟩

end Sys2Proof.Laws.RowMatch
end

