-- ==== Sys2Proof/Tests/Slice0.lean ====
section
/-! SUPPORT. The model's own tests. Expected results come from 95_test_vectors.md (V1 to V8), from the
examples under the rules, or are worked out by hand from the encoding tables; then, for each
statement with hypotheses, a state and operands that meet them all. -/

namespace Sys2Proof.Tests
open Sys2Proof Sys2Proof.Machine

/-! ### Helpers -/

/-- A small state: pc, some registers, some words of memory by word index. -/
def small (pc : Word) (rs : List (RegIdx × Word)) (ws : List (Nat × Word)) : State :=
  let s := rs.foldl (fun s r => s.writeReg r.1 r.2) { State.reset with pc := pc }
  { s with mem := ws.foldl (fun m w => m.writeWord w.1 w.2) s.mem }

/-- The state's next step, with the given word placed at the pc, ends in a state with property `p`. -/
def after (s : State) (w : Nat) (p : State → Bool) : Bool :=
  match step (s.withFetchWord 32 w) with
  | .next t => p t
  | .fault _ => false
  | .refused _ => false

/-! ### WellFormed: an ill-formed term for each check -/

theorem test_wf_refuses_2048 : (Instr.opimm 1 1 2048).wf = false := by decide
theorem test_wf_refuses_minus_2049 : (Instr.sw 1 2 0xFFFFF7FF).wf = false := by decide
theorem test_wf_refuses_low_bit_of_upper : (Instr.lui 1 0x12345001).wf = false := by decide
theorem test_wf_takes_range_ends : (Instr.lw 1 1 0xFFFFF800).wf = true ∧ (Instr.sb 1 1 0x7FF).wf = true ∧
    (Instr.lui 1 0xFFFFF000).wf = true := by decide

/-! ### Decoding: words written out from 30_encoding.md R61 to R71 -/

theorem test_decode_plain : decodeWord 0x00500093 = .opimm 1 0 5 ∧ decodeWord 0x002081B3 = .op 3 1 2 ∧
    decodeWord 0x123452B7 = .lui 5 0x12345000 ∧ decodeWord 0x008100E7 = .jalr 1 2 8 := by decide
/-- V3.1, V3.11 and V3.16 to V3.21. -/
theorem test_decode_loads : decodeWord 0x0000A183 = .lw 3 1 0 ∧ decodeWord 0x0000C183 = .lbu 3 1 0 ∧
    decodeWord 0x00108183 = .ldx0 3 1 1 ∧ decodeWord 0x00109183 = .ldx1 3 1 1 ∧ decodeWord 0x0010B183 = .ldx3 3 1 1 ∧
    decodeWord 0x0010D183 = .ldx5 3 1 1 ∧ decodeWord 0x0010E183 = .ldx6 3 1 1 ∧ decodeWord 0x0010F183 = .ldx7 3 1 1 := by
  decide
/-- V4.6, V4.3 and V4.17 to V4.22. -/
theorem test_decode_stores : decodeWord 0x002080A3 = .sb 1 2 1 ∧ decodeWord 0xFE20AE23 = .sw 1 2 0xFFFFFFFC ∧
    decodeWord 0x00209023 = .stx1 1 2 0 ∧ decodeWord 0x0020B023 = .stx3 1 2 0 ∧ decodeWord 0x0020C023 = .stx4 1 2 0 ∧
    decodeWord 0x0020D023 = .stx5 1 2 0 ∧ decodeWord 0x0020E023 = .stx6 1 2 0 ∧ decodeWord 0x0020F023 = .stx7 1 2 0 := by
  decide
/-- Format I with imm = -2, rs1 = 1, rd = 29, in the first thirteen unrecognised groups. -/
theorem test_decode_undef_low :
    decodeWord 0xFFE08E87 = .undef00001 29 1 0xFFFFFFFE ∧ decodeWord 0xFFE08E8B = .undef00010 29 1 0xFFFFFFFE ∧
    decodeWord 0xFFE08E8F = .undef00011 29 1 0xFFFFFFFE ∧ decodeWord 0xFFE08E97 = .undef00101 29 1 0xFFFFFFFE ∧
    decodeWord 0xFFE08E9B = .undef00110 29 1 0xFFFFFFFE ∧ decodeWord 0xFFE08E9F = .undef00111 29 1 0xFFFFFFFE ∧
    decodeWord 0xFFE08EA7 = .undef01001 29 1 0xFFFFFFFE ∧ decodeWord 0xFFE08EAB = .undef01010 29 1 0xFFFFFFFE ∧
    decodeWord 0xFFE08EAF = .undef01011 29 1 0xFFFFFFFE ∧ decodeWord 0xFFE08EBB = .undef01110 29 1 0xFFFFFFFE ∧
    decodeWord 0xFFE08EBF = .undef01111 29 1 0xFFFFFFFE ∧ decodeWord 0xFFE08EC3 = .undef10000 29 1 0xFFFFFFFE ∧
    decodeWord 0xFFE08EC7 = .undef10001 29 1 0xFFFFFFFE := by
  decide
/-- Format I with imm = -2, rs1 = 1, rd = 29, in the last thirteen unrecognised groups. -/
theorem test_decode_undef_high :
    decodeWord 0xFFE08ECB = .undef10010 29 1 0xFFFFFFFE ∧ decodeWord 0xFFE08ECF = .undef10011 29 1 0xFFFFFFFE ∧
    decodeWord 0xFFE08ED3 = .undef10100 29 1 0xFFFFFFFE ∧ decodeWord 0xFFE08ED7 = .undef10101 29 1 0xFFFFFFFE ∧
    decodeWord 0xFFE08EDB = .undef10110 29 1 0xFFFFFFFE ∧ decodeWord 0xFFE08EDF = .undef10111 29 1 0xFFFFFFFE ∧
    decodeWord 0xFFE08EE3 = .undef11000 29 1 0xFFFFFFFE ∧ decodeWord 0xFFE08EEB = .undef11010 29 1 0xFFFFFFFE ∧
    decodeWord 0xFFE08EEF = .undef11011 29 1 0xFFFFFFFE ∧ decodeWord 0xFFE08EF3 = .undef11100 29 1 0xFFFFFFFE ∧
    decodeWord 0xFFE08EF7 = .undef11101 29 1 0xFFFFFFFE ∧ decodeWord 0xFFE08EFB = .undef11110 29 1 0xFFFFFFFE ∧
    decodeWord 0xFFE08EFF = .undef11111 29 1 0xFFFFFFFE := by
  decide
/-- The word is laid out little-endian for the byte decoder; two bytes are too few. -/
theorem test_decode_bytes : decodeBytes [0x93, 0x00, 0x50, 0x00, 0xAA] = .ok (.opimm 1 0 5, [0xAA]) ∧
    decodeBytes [0x93, 0x00] = .error .truncated := by decide
theorem test_decodeTableWord : decodeTableWord 32 0x0000A183 = some (.lw 3 1 0) ∧ decodeTableWord 8 0x10 = some (.opimm 0 0 0) := by
  decide
/-- 30_encoding.md R74's formula for `sw x2, -4(x1)`. -/
theorem test_encode_sw : encode (.sw 1 2 0xFFFFFFFC) = 0xFE20AE23 := by decide

/-! ### One step of each instruction -/

/-- V1.8: a shift encoding adds 0x404. -/
theorem test_opimm_selector_ignored :
    after (small 0 [(1, 0x80000000)] []) 0x4040D193 (fun t => t.readReg 3 == 0x80000404 && t.report == none) = true := by
  decide
/-- V1.14: the pc wraps. -/
theorem test_opimm_pc_wraps :
    after (small 0xFFFFFFFC [(4, 1)] []) 0x00420213 (fun t => t.readReg 4 == 5 && t.pc == 0) = true := by decide
/-- V2.2: "sub" adds, and reports. -/
theorem test_op_adds_and_reports : after (small 0 [(1, 7), (2, 8)] []) 0x402081B3
    (fun t => t.readReg 3 == 15 && t.report == some .immediateDecodeError) = true := by decide
/-- V2.5: the source is the destination and the sum wraps. -/
theorem test_op_wraps : after (small 0 [(1, 0x80000001)] []) 0x001080B3 (fun t => t.readReg 1 == 2) = true := by decide
/-- V5.6: the immediate, not the ALU's sum with x31. -/
theorem test_lui_ignores_registers : after (small 0 [(31, 0x1000)] []) 0x1234F2B7
    (fun t => t.readReg 5 == 0x1234F000 && t.pc == 4) = true := by decide
/-- V5.2: x0 stays 0. -/
theorem test_lui_x0 : after State.reset 0x12345037 (fun t => t.readReg 0 == 0 && t.regs == State.reset.regs) = true := by decide
/-- V6.2: the target from the old x1. -/
theorem test_jalr_rd_is_rs1 : after (small 0x10 [(1, 0x40)] []) 0x004080E7
    (fun t => t.readReg 1 == 0x14 && t.pc == 0x44) = true := by decide
/-- V6.3: an odd target is kept. -/
theorem test_jalr_odd_target : after (small 0x20 [(2, 0x101)] []) 0x002100E7
    (fun t => t.readReg 1 == 0x24 && t.pc == 0x103) = true := by decide
/-- V3.6: a load inside the pixel window reads general memory. -/
theorem test_lw_in_window : after (small 0 [(1, 0x20000100)] [(0x40, 0xDEADBEEF)]) 0x0000A183
    (fun t => t.readReg 3 == 0xDEADBEEF && t.report == none) = true := by decide
/-- V3.3: a misaligned load reads the containing word. -/
theorem test_lw_misaligned : after (small 0 [(1, 0x103)] [(0x40, 0xDEADBEEF)]) 0x0000A183
    (fun t => t.readReg 3 == 0xDEADBEEF) = true := by decide
/-- V3.12: lane 1, no sign extension. -/
theorem test_lbu_lane : after (small 0 [(1, 0x100)] [(0x40, 0xDEADBEEF)]) 0x0010C183 (fun t => t.readReg 3 == 0xBE) = true := by
  decide
/-- V3.15: the top of the address space, lane 3 of the last word. -/
theorem test_lbu_top : after (small 0 [] [(0x3FFF, 0xAABBCCDD)]) 0xFFF04183 (fun t => t.readReg 3 == 0xAA) = true := by decide
/-- V3.16 to V3.21: the whole word and LoadError, for each of the six selectors. -/
theorem test_ldx_whole_word : [0x00108183, 0x00109183, 0x0010B183, 0x0010D183, 0x0010E183, 0x0010F183].all
    (fun w => after (small 0 [(1, 0x100)] [(0x40, 0xDEADBEEF)]) w
      (fun t => t.readReg 3 == 0xDEADBEEF && t.report == some .loadError)) = true := by decide
/-- V4.7: one lane, the others kept. -/
theorem test_sb_lane : after (small 0 [(1, 0x100), (2, 0x11223344)] [(0x40, 0xDEADBEEF)]) 0x00208123
    (fun t => t.wordAt 0x40 == 0xDE44BEEF && t.report == none) = true := by decide
/-- V4.15: a byte store into the window goes to general memory, with no pixel and no Flush. -/
theorem test_sb_in_window : after (small 0 [(1, 0x20000000), (2, 0xFF)] [(1, 0x55555555)]) 0x00208223
    (fun t => t.wordAt 1 == 0x555555FF && t.pixels == [] && t.flush == none) = true := by decide
/-- V4.12: a pixel store at row 1, column 1, with bits 1:0 of the address ignored. -/
theorem test_sw_pixel : after (small 0 [(1, 0x20000400), (2, 7)] [(0x101, 5)]) 0x0020A3A3
    (fun t => t.pixelAt 1 1 == 7 && t.flush == some t.pixels && t.wordAt 0x101 == 5) = true := by decide
/-- V4.13, V4.14: just past the window and just below it, general memory at the masked address. -/
theorem test_sw_beside_window :
    after (small 0x40 [(1, 0x20040000), (2, 0x11223344)] []) 0x0020A023
      (fun t => t.wordAt 0 == 0x11223344 && t.pixels == [] && t.flush == none && t.pc == 0x44) = true ∧
    after (small 0 [(1, 0x1FFFFFFC), (2, 0x11223344)] []) 0x0020A023
      (fun t => t.wordAt 0x3FFF == 0x11223344 && t.pixels == [] && t.flush == none) = true := by decide
/-- V4.17 to V4.22: nothing stored and SaveError, for each of the six selectors. -/
theorem test_stx_nothing : [0x00209023, 0x0020B023, 0x0020C023, 0x0020D023, 0x0020E023, 0x0020F023].all
    (fun w => after (small 0 [(1, 0x100), (2, 0x11223344)] [(0x40, 0xDEADBEEF)]) w
      (fun t => t.wordAt 0x40 == 0xDEADBEEF && t.report == some .saveError && t.pc == 4)) = true := by decide
/-- V4.23: not into the window either. -/
theorem test_stx_in_window : after (small 0 [(1, 0x20000000), (2, 0xFF)] [(1, 0x55555555)]) 0x00209223
    (fun t => t.wordAt 1 == 0x55555555 && t.pixels == [] && t.flush == none) = true := by decide
/-- V7.2: x29 = x1 + sext(0xFE2), with DecodeError and no jump. -/
theorem test_undef_branch_encoding : after (small 0 [(1, 5)] []) 0xFE209EE3
    (fun t => t.readReg 29 == 0xFFFFFFE7 && t.report == some .decodeError && t.pc == 4) = true := by decide
/-- 44_decode_failure.md R150 on all 26 groups: x29 = x1 - 2. -/
theorem test_undef_all_groups : [1, 2, 3, 5, 6, 7, 9, 10, 11, 14, 15, 16, 17,
    18, 19, 20, 21, 22, 23, 24, 26, 27, 28, 29, 30, 31].all
    (fun g => after (small 0 [(1, 5)] []) (0xFFE08E83 + 4 * g)
      (fun t => t.readReg 29 == 3 && t.report == some .decodeError && t.pc == 4)) = true := by decide
/-- P6, cycle 3: the fetch at the odd pc 0x11 reads the word at 0x10. -/
theorem test_fetch_misaligned : (small 0x11 [] [(4, 0x00128293)]).fetch = 0x00128293 := by decide
/-- P4: the second pixel store emits a Flush although its cell does not change. -/
theorem test_outputs_of_two_pixel_stores :
    (outputs 2 (small 0 [(1, 0x20000000), (2, 0xFF)] [(0, 0x0020A223), (1, 0x0020A223)])).map (fun o => o.2) =
      [some [(1, 0xFF)], some [(1, 0xFF)]] := by decide
/-- 60_exceptions.md R163: a halt-on-error run stops at the first `add`, not at an `addi`. -/
theorem test_quiet : quietFor 1 (small 0 [] [(0, 0x00500093)]) = true ∧ quietFor 1 (small 0 [] [(0, 0x002081B3)]) = false := by
  decide

/-! ### Witnesses: each statement's hypotheses hold together somewhere -/

/-- The step of `s` answers a next state. -/
def steps (s : State) : Bool := match step s with
  | .next _ => true
  | .fault _ => false
  | .refused _ => false

/-- A pixel store about to run, from a legal state. -/
def pixelStore : State := small 0 [(1, 0x20000000), (2, 0xFF)] [(0, 0x0020A223)]
/-- A word store outside the window about to run. -/
def wordStore : State := small 0 [(1, 0x100), (2, 0x11223344)] [(0, 0x0020A023)]
/-- A byte store about to run. -/
def byteStore : State := small 0 [(1, 0x100), (2, 0x11223344)] [(0, 0x00208123)]
/-- A JALR to an odd target about to run. -/
def oddJump : State := small 0x20 [(2, 0x101)] [(8, 0x002100E7)]

theorem witness_StepKeepsLegal : pixelStore.legal = true ∧ ∃ t, step pixelStore = .next t := ⟨by decide, _, rfl⟩
theorem witness_CapacityNeverChanges : ∃ t, step wordStore = .next t := ⟨_, rfl⟩
theorem witness_CanonicalFormUnique : Memory.wf [(3, 7), (5, 1)] = true ∧ Grid.wf [(0, 1), (65535, 2)] = true := by decide
theorem witness_BootLoad_too_long : ({ State.reset with config := ⟨0⟩ } : State).config.memWords < [1, (2 : Word)].length := by
  decide
theorem witness_BootLoad_fits : [(0x00500093 : Word)].length ≤ ({ State.reset with config := ⟨0⟩ } : State).config.memWords := by
  decide
theorem witness_RoundTrip : (Instr.sb 31 0 0xFFFFF800).wf = true := by decide
theorem witness_EveryWordHits : (⟨"SW", 0x707C, 0x2020⟩ : OpcodeRow) ∈ opcodeTable ∧
    (⟨"SW", 0x707C, 0x2020⟩ : OpcodeRow).hits 0x0020A223 = true := by decide
theorem witness_IgnoredBits_low : (0x00500093 : Word) &&& 0xFFFFFFFC = 0x00500090 &&& 0xFFFFFFFC := by decide
theorem witness_IgnoredBits_opimm : (0x0FF0C193 : Word).extractLsb' 2 5 = 0b00100#5 ∧
    (0x0FF0C193 : Word) &&& 0xFFFF8FFC = 0x0FF08193 &&& 0xFFFF8FFC := by decide
theorem witness_IgnoredBits_op : (0x402081B3 : Word).extractLsb' 2 5 = 0b01100#5 ∧
    (0x402081B3 : Word) &&& 0x01FF8FFC = 0x002081B3 &&& 0x01FF8FFC := by decide
theorem witness_IgnoredBits_jalr : (0x008150E7 : Word).extractLsb' 2 5 = 0b11001#5 ∧
    (0x008150E7 : Word) &&& 0xFFFF8FFC = 0x008100E7 &&& 0xFFFF8FFC := by decide
theorem witness_IgnoredBits_undef : recognisedGroup ((0x00000463 : Word).extractLsb' 2 5) = false ∧
    recognisedGroup ((0x0000146F : Word).extractLsb' 2 5) = false ∧
    (0x00000463 : Word) &&& 0xFFFF8F80 = 0x0000146F &&& 0xFFFF8F80 := by decide
theorem witness_ShortBytes : [1, 2, (3 : Byte)].length < 4 ∧ 4 ≤ [1, 2, 3, (4 : Byte)].length := by decide
theorem witness_StepRunsDecoded : decodeBytes [oddJump.byteAt (4 * oddJump.widx oddJump.pc),
    oddJump.byteAt (4 * oddJump.widx oddJump.pc + 1), oddJump.byteAt (4 * oddJump.widx oddJump.pc + 2),
    oddJump.byteAt (4 * oddJump.widx oddJump.pc + 3)] = .ok (.jalr 1 2 2, []) := by decide
theorem witness_PlacedInstructionRuns : (Instr.lui 31 0xFFFFF000).wf = true := by decide
theorem witness_NothingElsePersists :
    sameArch wordStore { wordStore with report := some .loadError, flush := some [] } ∧
    wordStore ≠ { wordStore with report := some .loadError, flush := some [] } := ⟨⟨rfl, rfl, rfl, rfl, rfl⟩, by decide⟩
theorem witness_GridNeverObserved : ∃ t, step pixelStore = .next t := ⟨_, rfl⟩
theorem witness_OnlyUsedRegisters : 7 ∉ usedRegs (.op 7 1 2) ∧ destReg (.op 7 1 2) = some 7 ∧
    ∃ t, exec (.op 7 1 2) wordStore = .next t := ⟨by decide, by decide, _, rfl⟩
theorem witness_OnlyStores_word : ∃ t, step wordStore = .next t ∧ t.byteAt 0x100 ≠ wordStore.byteAt 0x100 := ⟨_, rfl, by decide⟩
theorem witness_OnlyStores_byte : ∃ t, step byteStore = .next t ∧ t.byteAt 0x102 ≠ byteStore.byteAt 0x102 := ⟨_, rfl, by decide⟩
theorem witness_OnlyStores_pixel : ∃ t, step pixelStore = .next t ∧ t.pixelAt 0 1 ≠ pixelStore.pixelAt 0 1 := ⟨_, rfl, by decide⟩
theorem witness_PcAlignment_other : wordStore.fetch.extractLsb' 2 5 ≠ 0b11001#5 ∧ ∃ t, step wordStore = .next t :=
  ⟨by decide, _, rfl⟩
theorem witness_PcAlignment_jalr : oddJump.fetch.extractLsb' 2 5 = 0b11001#5 ∧ ∃ t, step oddJump = .next t :=
  ⟨by decide, _, rfl⟩
theorem witness_StoreSeenByNextFetch :
    ¬ (0x20000000 ≤ ((small 0xFC [(1, 0x100), (2, 0x13)] []).readReg 1 + 0).toNat ∧
      ((small 0xFC [(1, 0x100), (2, 0x13)] []).readReg 1 + 0).toNat < 0x20040000) ∧
    (small 0xFC [(1, 0x100), (2, 0x13)] []).widx ((small 0xFC [(1, 0x100), (2, 0x13)] []).readReg 1 + 0) =
      (small 0xFC [(1, 0x100), (2, 0x13)] []).widx ((small 0xFC [(1, 0x100), (2, 0x13)] []).pc + 4) ∧
    ∃ t, exec (.sw 1 2 0) (small 0xFC [(1, 0x100), (2, 0x13)] []) = .next t := ⟨by decide, by decide, _, rfl⟩
theorem witness_RegisterWriteLaws : (31 : RegIdx) ≠ 0 ∧ ∃ t, step wordStore = .next t := ⟨by decide, _, rfl⟩
theorem witness_ByteRoundTrip : 0x101 ≠ (byteStore.masked (byteStore.readReg 1 + 2)).toNat ∧
    byteStore.widx 0x100 = byteStore.widx 0x103 := by decide
theorem witness_Window_ends : inWindow 0x20000000 = true ∧ inWindow 0x2003FFFF = true ∧ inWindow 0x1FFFFFFF = false ∧
    inWindow 0x20040000 = false := by decide
theorem witness_Selector : (0x4040D193 : Word).extractLsb' 2 5 = 0b00100#5 ∧ (0x0220F1B3 : Word).extractLsb' 2 5 = 0b01100#5 := by
  decide
theorem witness_masks_plain : (0x4040D193 : Word) &&& 0x7C = 0x10 ∧ (0x402081B3 : Word) &&& 0x7C = 0x30 ∧
    (0x1234F2B7 : Word) &&& 0x7C = 0x34 ∧ (0x008150E7 : Word) &&& 0x7C = 0x64 := by decide
theorem witness_masks_loads : (0x0000A183 : Word) &&& 0x707C = 0x2000 ∧ (0x0010C183 : Word) &&& 0x707C = 0x4000 ∧
    (Instr.ldx7, (0x7000 : Word)) ∈ ldxRows.zip [0x0000, 0x1000, 0x3000, 0x5000, 0x6000, 0x7000] ∧
    (0x0010F183 : Word) &&& 0x707C = 0x7000 := ⟨by decide, by decide, by simp [ldxRows], by decide⟩
theorem witness_masks_stores : (0x00208123 : Word) &&& 0x707C = 0x20 ∧ (0x0020A223 : Word) &&& 0x707C = 0x2020 ∧
    (Instr.stx1, (0x1020 : Word)) ∈ stxRows.zip [0x1020, 0x3020, 0x4020, 0x5020, 0x6020, 0x7020] ∧
    (0x00209023 : Word) &&& 0x707C = 0x1020 := ⟨by decide, by decide, by simp [stxRows], by decide⟩
/-- Both sides of the pixel window for the word store outside it. -/
theorem witness_SwStoresContainingWord :
    ¬ (0x20000000 ≤ ((small 0 [(1, 0x20040000)] []).readReg 1 + 0xFFFFFFFF + 1).toNat ∧
      ((small 0 [(1, 0x20040000)] []).readReg 1 + 0xFFFFFFFF + 1).toNat < 0x20040000) ∧
    ¬ (0x20000000 ≤ ((small 0 [(1, 0x20000000)] []).readReg 1 + 0xFFFFFFFF).toNat ∧
      ((small 0 [(1, 0x20000000)] []).readReg 1 + 0xFFFFFFFF).toNat < 0x20040000) := by decide
/-- Both ends of the pixel window for the word store inside it. -/
theorem witness_SwStoresPixel :
    (0x20000000 ≤ ((small 0 [(1, 0x20000000)] []).readReg 1 + 0).toNat ∧
      ((small 0 [(1, 0x20000000)] []).readReg 1 + 0).toNat < 0x20040000) ∧
    (0x20000000 ≤ ((small 0 [(1, 0x20040000)] []).readReg 1 + 0xFFFFFFFF).toNat ∧
      ((small 0 [(1, 0x20040000)] []).readReg 1 + 0xFFFFFFFF).toNat < 0x20040000) := by decide
theorem witness_UndefDecodes : (Instr.undef11111, (0b11111 : BitVec 5)) ∈ undefInstrs.zip ([0b00001, 0b00010, 0b00011,
    0b00101, 0b00110, 0b00111, 0b01001, 0b01010, 0b01011, 0b01110, 0b01111, 0b10000, 0b10001, 0b10010, 0b10011, 0b10100, 0b10101,
    0b10110, 0b10111, 0b11000, 0b11010, 0b11011, 0b11100, 0b11101, 0b11110, 0b11111] : List (BitVec 5)) ∧
    (0xFFFFFFFF : Word).extractLsb' 2 5 = 0b11111#5 := ⟨by simp [undefInstrs], by decide⟩
theorem witness_UndefWordRunsAsOpimm :
    (0xFE209EE3 : Word).extractLsb' 2 5 ∉ ([0b00000, 0b00100, 0b01000, 0b01100, 0b01101, 0b11001] : List (BitVec 5)) ∧
    (0xFE209E93 : Word).extractLsb' 2 5 = 0b00100#5 ∧ (0xFE209EE3 : Word).extractLsb' 7 25 = (0xFE209E93 : Word).extractLsb' 7 25 := by
  decide
/-- A launch state with a non-empty image, arbitrary registers and an arbitrary grid exists. -/
theorem witness_launch : State.launch [0x00500093] { small 0 [(5, 99)] [(0, 0x00500093)] with pixels := [(3, 7)] } := by
  refine ⟨rfl, by decide, ?_, rfl, rfl, by decide⟩
  intro j h
  match j, h with
  | 0, _ =>
    show State.wordAt (small 0 [(5, 99)] [(0, 0x00500093)]) 0 = (0x00500093 : Word)
    decide

end Sys2Proof.Tests
end

