-- ==== Sys2Proof/Proofs/OutputsForgotten.lean ====
section
/-! What an earlier cycle left in the two output fields never reaches the next one (10_state.md R10):
every meaning ends in `finish`, which overwrites both, and nothing before it reads them. A state with
other outputs is written `s.finish s.pc r f`. -/

namespace Sys2Proof.Machine

/-! ### The accessors and updates on a state with other outputs -/

@[simp] theorem finish_memRead4 (s : State) (p r f a) : (s.finish p r f).memRead4 a = s.memRead4 a := rfl
@[simp] theorem finish_memRead1 (s : State) (p r f a) : (s.finish p r f).memRead1 a = s.memRead1 a := rfl
@[simp] theorem finish_pc_fetch (s : State) (r f) : (s.finish s.pc r f).fetch = s.fetch := rfl

/-- The later end of a cycle stays. -/
@[simp] theorem finish_finish (s : State) (p r f p' r' f') :
    (s.finish p r f).finish p' r' f' = s.finish p' r' f' := rfl
@[simp] theorem finish_pc_advance (s : State) (r f q) : (s.finish s.pc r f).advance q = s.advance q := rfl

/-- Two states agree on all but the outputs exactly if one is the other with outputs of its own. -/
theorem sameArch_iff_finish (s t : State) : sameArch s t ↔ t = s.finish s.pc t.report t.flush := by
  constructor
  · rintro ⟨hconfig, hregs, hpc, hmem, hpixels⟩
    simp only [State.finish, hconfig, hregs, hpc, hmem, hpixels]
  · intro h
    rw [h]
    exact ⟨rfl, rfl, rfl, rfl, rfl⟩

/-! ### The meanings and the step -/

/-! `…_forgets`: an update and then the end of the cycle give the same from a state with other outputs. -/

theorem writeReg_finish_forgets (s : State) (i v p r f p' r' f') :
    ((s.finish p r f).writeReg i v).finish p' r' f' = (s.writeReg i v).finish p' r' f' := by
  rw [writeReg_finish, finish_finish, writeReg_finish]

theorem writeReg_advance_forgets (s : State) (i v r f q) :
    ((s.finish s.pc r f).writeReg i v).advance q = (s.writeReg i v).advance q := by
  rw [writeReg_advance, finish_pc_advance, writeReg_advance]

theorem memWrite4_advance_forgets (s : State) (a v r f q) :
    ((s.finish s.pc r f).memWrite4 a v).advance q = (s.memWrite4 a v).advance q := rfl
theorem memWrite1_advance_forgets (s : State) (a b r f q) :
    ((s.finish s.pc r f).memWrite1 a b).advance q = (s.memWrite1 a b).advance q := rfl
theorem pixWrite_advanceFlush_forgets (s : State) (a v r f) :
    ((s.finish s.pc r f).pixWrite a v).advanceFlush = (s.pixWrite a v).advanceFlush := rfl

/-- No instruction sees the outputs of the cycle before it. -/
theorem exec_finish_pc (i : Instr) (s : State) (r f) : exec i (s.finish s.pc r f) = exec i s := by
  rcases instr_cases i with ⟨rd, rs1, imm, rfl⟩ | ⟨rd, rs1, rs2, rfl⟩ | ⟨rd, imm, rfl⟩ | ⟨rd, rs1, imm, rfl⟩
    | ⟨rd, rs1, imm, rfl⟩ | ⟨rd, rs1, imm, rfl⟩ | ⟨rs1, rs2, imm, rfl⟩ | ⟨rs1, rs2, imm, rfl⟩
    | ⟨mk, hm, rd, rs1, imm, rfl⟩ | ⟨mk, hm, rs1, rs2, imm, rfl⟩ | ⟨mk, hm, rd, rs1, imm, rfl⟩
  · simp only [exec_opimm, finish_readReg, writeReg_advance_forgets]
  · simp only [exec_op, finish_readReg, writeReg_advance_forgets]
  · simp only [exec_lui, writeReg_advance_forgets]
  · simp only [exec_jalr, finish_pc, finish_readReg, writeReg_finish_forgets]
  · simp only [exec_lw, finish_readReg, finish_memRead4, writeReg_advance_forgets]
  · simp only [exec_lbu, finish_readReg, finish_memRead1, writeReg_advance_forgets]
  · simp only [exec_sb, finish_readReg, memWrite1_advance_forgets]
  · -- SW: the window test reads a register only, so both states take the same branch
    cases hw : inWindow (s.readReg rs1 + imm)
    · rw [exec_sw_memory hw, exec_sw_memory (by simpa using hw), finish_readReg, finish_readReg, memWrite4_advance_forgets]
    · rw [exec_sw_window hw, exec_sw_window (by simpa using hw), finish_readReg, finish_readReg, pixWrite_advanceFlush_forgets]
  · simp only [exec_ldx hm, finish_readReg, finish_memRead4, writeReg_advance_forgets]
  · simp only [exec_stx hm, finish_pc_advance]
  · simp only [exec_undef hm, finish_readReg, writeReg_advance_forgets]

/-- The step depends on nothing but the four items of R10 and the fixed capacity. -/
theorem step_finish_pc (s : State) (r f) : step (s.finish s.pc r f) = step s := by
  rw [step_eq, step_eq, finish_pc_fetch, exec_finish_pc]

/-- Settles O23: a state that agrees on all but the outputs is the same state with other outputs, and
the step overwrites those without reading them. -/
theorem nothingElsePersists : Obligations.NothingElsePersists := by
  intro s s' h
  rw [(sameArch_iff_finish s s').mp h, step_finish_pc]

end Sys2Proof.Machine
end

