-- ==== Sys2Proof/Proofs/CycleEnd.lean ====
section
/-! That every cycle completes, and the three ways it can end: a jump, a pixel store with its Flush, or
`pc + 4` with no Flush (40_cycle.md R90, R101, R103). -/

namespace Sys2Proof.Machine

/-! ### Every cycle completes (R90) -/

/-- No instruction faults or is refused, in any state. -/
theorem exec_completes (i : Instr) (s : State) : ∃ t, exec i s = .next t := by
  rcases instr_cases i with ⟨rd, rs1, imm, rfl⟩ | ⟨rd, rs1, rs2, rfl⟩ | ⟨rd, imm, rfl⟩ | ⟨rd, rs1, imm, rfl⟩
    | ⟨rd, rs1, imm, rfl⟩ | ⟨rd, rs1, imm, rfl⟩ | ⟨rs1, rs2, imm, rfl⟩ | ⟨rs1, rs2, imm, rfl⟩
    | ⟨mk, hm, rd, rs1, imm, rfl⟩ | ⟨mk, hm, rs1, rs2, imm, rfl⟩ | ⟨mk, hm, rd, rs1, imm, rfl⟩
  · exact ⟨_, exec_opimm ..⟩
  · exact ⟨_, exec_op ..⟩
  · exact ⟨_, exec_lui ..⟩
  · exact ⟨_, exec_jalr ..⟩
  · exact ⟨_, exec_lw ..⟩
  · exact ⟨_, exec_lbu ..⟩
  · exact ⟨_, exec_sb ..⟩
  · cases hw : inWindow (s.readReg rs1 + imm)
    · exact ⟨_, exec_sw_memory hw⟩
    · exact ⟨_, exec_sw_window hw⟩
  · exact ⟨_, exec_ldx hm ..⟩
  · exact ⟨_, exec_stx hm ..⟩
  · exact ⟨_, exec_undef hm ..⟩

/-- Settles O18: the step is `exec` of the decoded word, which completes, and it is a function. -/
theorem everyStateHasOneSuccessor : Obligations.EveryStateHasOneSuccessor := by
  refine ⟨fun s => ?_, exec_completes⟩
  obtain ⟨t, ht⟩ := exec_completes (decodeWord s.fetch) s
  rw [← step_eq] at ht
  exact ⟨t, ht, fun t' ht' => Host.Outcome.next.inj (ht'.symm.trans ht)⟩

/-! ### How a cycle ends -/

/-- The fetched word is a STORE with selector 2 whose unmasked address lies in the pixel window
(R103). -/
def State.storesPixel (s : State) : Prop :=
  fieldGrp s.fetch = 0b01000#5 ∧ fieldF3 s.fetch = 2#3 ∧ inWindow (s.readReg (fieldRs1 s.fetch) + immS s.fetch) = true

/-- A pixel store in the bits and bounds of 40_cycle.md R103. -/
theorem storesPixel_iff (s : State) : s.storesPixel ↔
    fieldGrp s.fetch = 0b01000#5 ∧ fieldF3 s.fetch = 2#3 ∧
      0x20000000 ≤ (s.readReg (fieldRs1 s.fetch) + immS s.fetch).toNat ∧
      (s.readReg (fieldRs1 s.fetch) + immS s.fetch).toNat < 0x20040000 := by
  rw [State.storesPixel, inWindow_iff]

theorem step_of_jalr {s : State} (h : fieldGrp s.fetch = 0b11001#5) :
    step s = .next ((s.writeReg (fieldRd s.fetch) (s.pc + 4)).finish
      (s.readReg (fieldRs1 s.fetch) + immI s.fetch) none none) := by
  rw [step_eq, decodeWord_jalr h, exec_jalr]

theorem step_of_storesPixel {s : State} (h : s.storesPixel) :
    step s = .next ((s.pixWrite (s.readReg (fieldRs1 s.fetch) + immS s.fetch)
      (s.readReg (fieldRs2 s.fetch))).advanceFlush) := by
  obtain ⟨hg, hf, hw⟩ := h
  rw [step_eq, decodeWord_sw hg hf, exec_sw_window hw]

/-- Every other cycle ends in `advance`, from a state `u` that still holds the old pc. -/
theorem step_advances {s : State} (hj : fieldGrp s.fetch ≠ 0b11001#5) (hp : ¬ s.storesPixel) :
    ∃ (u : State) (r : Option ErrorKind), step s = .next (u.advance r) ∧ u.pc = s.pc := by
  rcases step_cases s with ⟨-, h⟩ | ⟨-, h⟩ | ⟨-, h⟩ | ⟨hg, -⟩ | ⟨-, -, h⟩ | ⟨-, -, h⟩ | ⟨-, -, -, h⟩
    | ⟨-, -, h⟩ | ⟨hg, hf, hw, -⟩ | ⟨-, -, -, h⟩ | ⟨-, -, -, h⟩ | ⟨-, h⟩
  · exact ⟨_, _, h, writeReg_pc ..⟩ -- OPIMM
  · exact ⟨_, _, h, writeReg_pc ..⟩ -- OP
  · exact ⟨_, _, h, writeReg_pc ..⟩ -- LUI
  · exact absurd hg hj
  · exact ⟨_, _, h, writeReg_pc ..⟩ -- LW
  · exact ⟨_, _, h, writeReg_pc ..⟩ -- LBU
  · exact ⟨_, _, h, writeReg_pc ..⟩ -- LDX
  · exact ⟨_, _, h, memWrite1_pc ..⟩ -- SB
  · exact absurd ⟨hg, hf, hw⟩ hp
  · exact ⟨_, _, h, memWrite4_pc ..⟩ -- SW outside the window
  · exact ⟨_, _, h, rfl⟩ -- STX
  · exact ⟨_, _, h, writeReg_pc ..⟩ -- UNDEF

/-! ### The pc and the Flush -/

/-- A JALR goes on at the ALU's sum, every other word at `pc + 4` (R101). -/
theorem step_pc (s : State) : ∃ t, step s = .next t ∧
    t.pc = if fieldGrp s.fetch = 0b11001#5 then s.readReg (fieldRs1 s.fetch) + immI s.fetch else s.pc + 4 := by
  by_cases hj : fieldGrp s.fetch = 0b11001#5
  · exact ⟨_, step_of_jalr hj, by rw [finish_pc, if_pos hj]⟩
  · rw [if_neg hj]
    by_cases hp : s.storesPixel
    · exact ⟨_, step_of_storesPixel hp, by rw [advanceFlush_pc, pixWrite_pc]⟩
    · obtain ⟨u, r, h, hu⟩ := step_advances hj hp
      exact ⟨_, h, by rw [advance_pc, hu]⟩

/-- A cycle emits a Flush exactly if its word stores a pixel (R103). -/
theorem step_flush_iff (s : State) : ∃ t, step s = .next t ∧ (t.flush ≠ none ↔ s.storesPixel) := by
  by_cases hp : s.storesPixel
  · exact ⟨_, step_of_storesPixel hp, by simp [hp]⟩
  · by_cases hj : fieldGrp s.fetch = 0b11001#5
    · exact ⟨_, step_of_jalr hj, by simp [hp]⟩
    · obtain ⟨u, r, h, -⟩ := step_advances hj hp
      exact ⟨_, h, by simp [hp]⟩

/-- Settles O20: the JALR group jumps, each other end of a cycle adds 4 to the old pc. -/
theorem pcUpdateByCategory : Obligations.PcUpdateByCategory :=
  step_pc

/-- Settles O22: only a pixel store ends in `advanceFlush`, and `storesPixel` is R103's condition. -/
theorem flushExactlyOnPixelStore : Obligations.FlushExactlyOnPixelStore := by
  intro s
  obtain ⟨t, ht, hflush⟩ := step_flush_iff s
  exact ⟨t, ht, hflush.trans (storesPixel_iff s)⟩

end Sys2Proof.Machine
end

