-- ==== Sys2Proof/Proofs/RegisterResult.lean ====
section
/-! A cycle whose only result goes to a register: what it sets and what it leaves alone, with the
arithmetic instructions (10_state.md R11, R12; 41_arith.md R110). -/

namespace Sys2Proof.Machine

/-! ### The frame of a register write that ends the cycle

Stated for `finish`, of which `advance` is the case of `pc + 4` and no Flush. -/

theorem regSet_writeReg_finish (s : State) (rd v p r f) : regSet s ((s.writeReg rd v).finish p r f) rd v := by
  intro i
  rw [finish_readReg, readReg_writeReg]

theorem memKept_writeReg_finish (s : State) (rd v p r f) : memKept s ((s.writeReg rd v).finish p r f) := by
  intro n
  rw [finish_byteAt, writeReg_byteAt]

theorem gridKept_writeReg_finish (s : State) (rd v p r f) : gridKept s ((s.writeReg rd v).finish p r f) := by
  intro y x
  rw [finish_pixelAt, writeReg_pixelAt]

/-- A cycle that sets one register, goes on at `pc + 4` and gives the report `r`. -/
theorem writeReg_advance_frame (s : State) (rd : RegIdx) (v : Word) (r : Option ErrorKind) :
    let t := (s.writeReg rd v).advance r
    regSet s t rd v ∧ t.pc = s.pc + 4 ∧ t.report = r ∧ t.flush = none ∧
      memKept s t ∧ gridKept s t ∧ t.config = s.config :=
  ⟨regSet_writeReg_finish s rd v _ r _, by rw [advance_pc, writeReg_pc], advance_report .., advance_flush ..,
    memKept_writeReg_finish s rd v _ r _, gridKept_writeReg_finish s rd v _ r _, by rw [advance_config, writeReg_config]⟩

/-! ### OPIMM (R110) -/

/-- Settles O34: the mask fixes the group, which picks the row, and the row writes the sum to `rd` and
goes on at `pc + 4`. -/
theorem opimmAddsImmediate : Obligations.OpimmAddsImmediate := by
  refine ⟨fun w hw => ?_, fun rd rs1 imm s => ⟨_, exec_opimm .., writeReg_advance_frame ..⟩⟩
  have hgrp : fieldGrp w = 0b00100#5 := fieldGrp_of_mask hw
  exact decodeWord_opimm hgrp

end Sys2Proof.Machine
end

