-- ==== Sys2Proof/Proofs/StoreUnsupported.lean ====
section
/-! A store with an unsupported selector: which word decodes to which of the six rows, and a cycle that
stores nothing (42_load_store.md R127). -/

namespace Sys2Proof.Machine

/-! ### Decoding (30_encoding.md R71) -/

theorem decodeWord_store {w : Word} (h : fieldGrp w = 0b01000#5) : decodeWord w = decodeStore w := by
  simp [decodeWord, h]

/-- The six rows with R127's match values, the selector in bits 14:12 of each. -/
def stxMatches : List ((RegIdx → RegIdx → Word → Instr) × Word) :=
  stxRows.zip [0x1020, 0x3020, 0x4020, 0x5020, 0x6020, 0x7020]

theorem mem_stxMatches_iff (p : (RegIdx → RegIdx → Word → Instr) × Word) : p ∈ stxMatches ↔
    p = (.stx1, 0x1020) ∨ p = (.stx3, 0x3020) ∨ p = (.stx4, 0x4020) ∨ p = (.stx5, 0x5020) ∨ p = (.stx6, 0x6020) ∨
      p = (.stx7, 0x7020) := by
  simp [stxMatches, stxRows]

/-- Each match value lies in the store group. -/
theorem group_of_mem_stxMatches {p} (h : p ∈ stxMatches) : p.2.extractLsb' 2 5 = 0b01000#5 := by
  rcases (mem_stxMatches_iff p).mp h with rfl | rfl | rfl | rfl | rfl | rfl <;> rfl

/-- The selector of a match value picks the row that stands beside it. -/
theorem decodeStore_of_mem_stxMatches {p} (h : p ∈ stxMatches) {w : Word} (hf : fieldF3 w = p.2.extractLsb' 12 3) :
    decodeStore w = p.1 (fieldRs1 w) (fieldRs2 w) (immS w) := by
  rcases (mem_stxMatches_iff p).mp h with rfl | rfl | rfl | rfl | rfl | rfl <;> simp [decodeStore, hf]

/-! ### The frame of a cycle that only reports -/

/-- `advance` alone keeps memory, grid and registers, emits no Flush, goes on at `pc + 4` and gives the
report `r`. -/
theorem advance_frame (s : State) (r : Option ErrorKind) :
    let t := s.advance r
    memKept s t ∧ gridKept s t ∧ t.flush = none ∧ regsKept s t ∧ t.pc = s.pc + 4 ∧ t.report = r ∧ t.config = s.config :=
  ⟨advance_byteAt s r, advance_pixelAt s r, advance_flush .., advance_readReg s r, advance_pc .., advance_report ..,
    advance_config ..⟩

/-! ### STX (R127) -/

/-- Settles O45: the mask fixes group and selector, which pick the row; no row looks at the address, so
each row is `advance` with SaveError, in the pixel window too. -/
theorem stxStoresNothingAndReports : Obligations.StxStoresNothingAndReports := by
  refine ⟨fun p hp w hw => ?_, fun mk hmk rs1 rs2 imm s => ⟨_, exec_stx hmk .., advance_frame ..⟩⟩
  obtain ⟨hgrp, hf⟩ := fields_of_selectorMask hw
  rw [decodeWord_store (hgrp.trans (group_of_mem_stxMatches hp))]
  exact decodeStore_of_mem_stxMatches hp hf

end Sys2Proof.Machine
end

