-- ==== Sys2Proof/Proofs/LuiJalr.lean ====
section
/-! LUI, whose result is the decoded immediate, and JALR, which links `pc + 4` and goes on at a
computed target (43_lui_jalr.md R140, R141). -/

namespace Sys2Proof.Machine

/-! ### The U immediate as a mask (30_encoding.md R68) -/

/-- Bit by bit: below 12 both sides are zero, from 12 on both are the word's own bit. -/
theorem immU_eq_and (w : Word) : immU w = w &&& 0xFFFFF000#32 := by
  apply BitVec.eq_of_getLsbD_eq
  intro i hi
  simp only [immU, BitVec.getLsbD_append, BitVec.getLsbD_extractLsb', BitVec.getLsbD_and]
  interval_cases i <;> simp

/-! ### LUI (R140) -/

/-- Settles O37: the mask fixes the group, which picks the row with the U immediate, and the row writes
that immediate to `rd` and goes on at `pc + 4`. -/
theorem luiLoadsUpperImmediate : Obligations.LuiLoadsUpperImmediate := by
  refine ⟨fun w hw => ?_, fun rd imm s => ⟨_, exec_lui .., writeReg_advance_frame ..⟩⟩
  have hgrp : fieldGrp w = 0b01101#5 := fieldGrp_of_mask hw
  rw [decodeWord_lui hgrp, immU_eq_and]
  rfl

/-! ### JALR (R141) -/

/-- A cycle that sets one register and goes on at `p`: the end of a jump, where `writeReg_advance_frame`
has `pc + 4`. The value and the target are given before the write, so `rd` cannot change the target. -/
theorem writeReg_finish_frame (s : State) (rd : RegIdx) (v p : Word) (r : Option ErrorKind) :
    let t := (s.writeReg rd v).finish p r none
    regSet s t rd v ∧ t.pc = p ∧ t.report = r ∧ t.flush = none ∧
      memKept s t ∧ gridKept s t ∧ t.config = s.config :=
  ⟨regSet_writeReg_finish s rd v p r none, finish_pc .., finish_report .., finish_flush ..,
    memKept_writeReg_finish s rd v p r none, gridKept_writeReg_finish s rd v p r none,
    by rw [finish_config, writeReg_config]⟩

/-- Settles O38: the mask fixes the group, which picks the row, and the row writes the link to `rd` and
goes on at the target read from the state before that write. -/
theorem jalrJumpsAndLinks : Obligations.JalrJumpsAndLinks := by
  refine ⟨fun w hw => ?_, fun rd rs1 imm s => ⟨_, exec_jalr .., writeReg_finish_frame ..⟩⟩
  have hgrp : fieldGrp w = 0b11001#5 := fieldGrp_of_mask hw
  exact decodeWord_jalr hgrp

end Sys2Proof.Machine
end

