-- ==== Sys2Proof/Proofs/LegalStep.lean ====
section
/-! The invariant of every step (10_state.md R19, R20, R22; 60_exceptions.md R160), and the capacity,
which no step changes (00_scope.md R2). -/

namespace Sys2Proof.Machine

/-- A fact about the state a step answers holds of every state it answers: the step is a function. -/
theorem of_step_next {P : State → Prop} {s t : State} (h : ∃ t, step s = .next t ∧ P t) (ht : step s = .next t) :
    P t := by
  obtain ⟨t', ht', hP⟩ := h
  rw [ht'] at ht
  exact Host.Outcome.next.inj ht ▸ hP

/-! ### The contents of memory and grid -/

/-- The part of `State.legal` that speaks of memory and grid: canonical form, and every key inside its
array. The rest of `State.legal` is about the outputs, which every cycle writes anew. -/
def State.contentsLegal (s : State) : Prop :=
  s.mem.wf = true ∧ keysBelow s.config.memBytes s.mem = true ∧ Grid.wf s.pixels = true ∧ keysBelow 65536 s.pixels = true

theorem contentsLegal_of_legal {s : State} (h : s.legal = true) : s.contentsLegal := by
  obtain ⟨hwf, hbelow, hgrid, hcells, -⟩ := (legal_iff s).mp h
  exact ⟨hwf, hbelow, hgrid, hcells⟩

theorem contentsLegal_writeReg {s : State} (h : s.contentsLegal) (rd v) : (s.writeReg rd v).contentsLegal := by
  simpa [State.contentsLegal] using h

theorem contentsLegal_memWrite4 {s : State} (h : s.contentsLegal) (a v) : (s.memWrite4 a v).contentsLegal := by
  obtain ⟨hwf, hbelow, hgrid, hcells⟩ := h
  obtain ⟨hwf', hbelow'⟩ := memWrite4_mem_legal s a v hwf hbelow
  exact ⟨hwf', hbelow', hgrid, hcells⟩

/-- A byte store is a word store of the merged word. -/
theorem contentsLegal_memWrite1 {s : State} (h : s.contentsLegal) (a b) : (s.memWrite1 a b).contentsLegal :=
  contentsLegal_memWrite4 h a _

theorem contentsLegal_pixWrite {s : State} (h : s.contentsLegal) (a v) : (s.pixWrite a v).contentsLegal := by
  obtain ⟨hwf, hbelow, hgrid, hcells⟩ := h
  obtain ⟨hgrid', hcells'⟩ := pixWrite_grid_legal s a v hgrid hcells
  exact ⟨hwf, hbelow, hgrid', hcells'⟩

/-! ### The end of a cycle -/

/-- The two kinds that cannot occur are not among the reports a cycle gives. -/
def reportOccurs (r : Option ErrorKind) : Prop := r ≠ some .writeBackError ∧ r ≠ some .addressingError

theorem legal_finish {s : State} (h : s.contentsLegal) (p : Word) {r : Option ErrorKind}
    (hr : reportOccurs r := by simp [reportOccurs]) {f : Option Grid} (hf : f = none ∨ f = some s.pixels) :
    (s.finish p r f).legal = true := by
  obtain ⟨hwf, hbelow, hgrid, hcells⟩ := h
  exact (legal_iff _).mpr ⟨hwf, hbelow, hgrid, hcells, hf, hr⟩

theorem legal_advance {s : State} (h : s.contentsLegal) {r : Option ErrorKind}
    (hr : reportOccurs r := by simp [reportOccurs]) : (s.advance r).legal = true :=
  legal_finish h _ hr (.inl rfl)

theorem legal_advanceFlush {s : State} (h : s.contentsLegal) : s.advanceFlush.legal = true :=
  legal_finish h _ (hf := .inr rfl)

/-! ### The step -/

/-- From legal contents every step ends in a legal state, whatever the outputs were. -/
theorem step_legal {s : State} (h : s.contentsLegal) : ∃ t, step s = .next t ∧ t.legal = true := by
  rcases step_cases s with ⟨-, ht⟩ | ⟨-, ht⟩ | ⟨-, ht⟩ | ⟨-, ht⟩ | ⟨-, -, ht⟩ | ⟨-, -, ht⟩ | ⟨-, -, -, ht⟩
    | ⟨-, -, ht⟩ | ⟨-, -, -, ht⟩ | ⟨-, -, -, ht⟩ | ⟨-, -, -, ht⟩ | ⟨-, ht⟩
  · exact ⟨_, ht, legal_advance (contentsLegal_writeReg h ..)⟩ -- OPIMM
  · exact ⟨_, ht, legal_advance (contentsLegal_writeReg h ..)⟩ -- OP
  · exact ⟨_, ht, legal_advance (contentsLegal_writeReg h ..)⟩ -- LUI
  · exact ⟨_, ht, legal_finish (contentsLegal_writeReg h ..) _ (hf := .inl rfl)⟩ -- JALR
  · exact ⟨_, ht, legal_advance (contentsLegal_writeReg h ..)⟩ -- LW
  · exact ⟨_, ht, legal_advance (contentsLegal_writeReg h ..)⟩ -- LBU
  · exact ⟨_, ht, legal_advance (contentsLegal_writeReg h ..)⟩ -- LDX
  · exact ⟨_, ht, legal_advance (contentsLegal_memWrite1 h ..)⟩ -- SB
  · exact ⟨_, ht, legal_advanceFlush (contentsLegal_pixWrite h ..)⟩ -- SW inside the window
  · exact ⟨_, ht, legal_advance (contentsLegal_memWrite4 h ..)⟩ -- SW outside it
  · exact ⟨_, ht, legal_advance h⟩ -- STX
  · exact ⟨_, ht, legal_advance (contentsLegal_writeReg h ..)⟩ -- UNDEF

/-- Settles O3: each update keeps the contents legal, and each end of a cycle writes outputs that are. -/
theorem stepKeepsLegal : Obligations.StepKeepsLegal :=
  fun _ _ hs ht => of_step_next (step_legal (contentsLegal_of_legal hs)) ht

/-! ### The capacity -/

theorem exec_config {i : Instr} {s t : State} (h : exec i s = .next t) : t.config = s.config := by
  rcases exec_next_cases h with ⟨rd, v, r, -, rfl⟩ | ⟨rd, rs1, imm, -, rfl⟩ | ⟨-, rfl⟩ | ⟨rs1, rs2, imm, -, rfl⟩
    | ⟨rs1, rs2, imm, -, -, rfl⟩ | ⟨rs1, rs2, imm, -, -, rfl⟩ <;> simp

/-- Settles O4: no update and no end of a cycle writes the capacity. -/
theorem capacityNeverChanges : Obligations.CapacityNeverChanges :=
  fun _ _ => exec_config

end Sys2Proof.Machine
end

