-- ==== Sys2Proof/Proofs/RoundTrip.lean ====
section
/-! The decoder against the encoder: every well-formed instruction comes back from its word and from its
bytes, and every word decodes to a well-formed instruction (30_encoding.md R60, R66 to R69, R71). -/

namespace Sys2Proof.Machine

/-! ### Well-formed instructions of the groups of rows -/

theorem wf_ldx {mk} (h : mk ∈ ldxRows) (rd rs1 imm) : (mk rd rs1 imm).wf = fits12 imm := by
  simp only [ldxRows, List.mem_cons, List.not_mem_nil, or_false] at h
  rcases h with rfl | rfl | rfl | rfl | rfl | rfl <;> rfl

theorem wf_stx {mk} (h : mk ∈ stxRows) (rs1 rs2 imm) : (mk rs1 rs2 imm).wf = fits12 imm := by
  simp only [stxRows, List.mem_cons, List.not_mem_nil, or_false] at h
  rcases h with rfl | rfl | rfl | rfl | rfl | rfl <;> rfl

theorem wf_undef {mk} (h : mk ∈ undefInstrs) (rd rs1 imm) : (mk rd rs1 imm).wf = fits12 imm := by
  simp only [undefInstrs, List.mem_cons, List.not_mem_nil, or_false] at h
  rcases h with rfl | rfl | rfl | rfl | rfl | rfl | rfl | rfl | rfl | rfl | rfl | rfl | rfl
    | rfl | rfl | rfl | rfl | rfl | rfl | rfl | rfl | rfl | rfl | rfl | rfl | rfl <;> rfl

/-! ### Words -/

/-- The six LDX rows: group 0, and the row's own selector picks the row. -/
theorem decodeWord_encode_ldx {mk} (h : mk ∈ ldxRows) (rd rs1) {imm} (hi : fits12 imm = true) :
    decodeWord (encode (mk rd rs1 imm)) = mk rd rs1 imm := by
  simp only [ldxRows, List.mem_cons, List.not_mem_nil, or_false] at h
  rcases h with rfl | rfl | rfl | rfl | rfl | rfl <;>
    simp [encode, decodeWord, decodeLoad, immI_encodeI _ _ _ _ _ hi]

/-- The six STX rows: group 8, and the row's own selector picks the row. -/
theorem decodeWord_encode_stx {mk} (h : mk ∈ stxRows) (rs1 rs2) {imm} (hi : fits12 imm = true) :
    decodeWord (encode (mk rs1 rs2 imm)) = mk rs1 rs2 imm := by
  simp only [stxRows, List.mem_cons, List.not_mem_nil, or_false] at h
  rcases h with rfl | rfl | rfl | rfl | rfl | rfl <;>
    simp [encode, decodeWord, decodeStore, immS_encodeS _ _ _ _ _ hi]

/-- The 26 UNDEF rows: the row's own group picks the row. -/
theorem decodeWord_encode_undef {mk} (h : mk ∈ undefInstrs) (rd rs1) {imm} (hi : fits12 imm = true) :
    decodeWord (encode (mk rd rs1 imm)) = mk rd rs1 imm := by
  simp only [undefInstrs, List.mem_cons, List.not_mem_nil, or_false] at h
  rcases h with rfl | rfl | rfl | rfl | rfl | rfl | rfl | rfl | rfl | rfl | rfl | rfl | rfl
    | rfl | rfl | rfl | rfl | rfl | rfl | rfl | rfl | rfl | rfl | rfl | rfl | rfl <;>
    simp [encode, decodeWord, immI_encodeI _ _ _ _ _ hi]

/-- The group, and for loads and stores the selector, pick the row; the fields of the row's format then
give the operands back. -/
theorem decodeWord_encode (i : Instr) (h : i.wf = true) : decodeWord (encode i) = i := by
  rcases instr_cases i with ⟨rd, rs1, imm, rfl⟩ | ⟨rd, rs1, rs2, rfl⟩ | ⟨rd, imm, rfl⟩ | ⟨rd, rs1, imm, rfl⟩
    | ⟨rd, rs1, imm, rfl⟩ | ⟨rd, rs1, imm, rfl⟩ | ⟨rs1, rs2, imm, rfl⟩ | ⟨rs1, rs2, imm, rfl⟩
    | ⟨mk, hm, rd, rs1, imm, rfl⟩ | ⟨mk, hm, rs1, rs2, imm, rfl⟩ | ⟨mk, hm, rd, rs1, imm, rfl⟩
  · simp only [encode, BitVec.ofNat_eq_ofNat]
    rw [decodeWord_opimm (fieldGrp_encodeI ..), fieldRd_encodeI, fieldRs1_encodeI, immI_encodeI _ _ _ _ _ h]
  · simp only [encode, BitVec.ofNat_eq_ofNat]
    rw [decodeWord_op (fieldGrp_encodeR ..), fieldRd_encodeR, fieldRs1_encodeR, fieldRs2_encodeR]
  · simp only [encode, BitVec.ofNat_eq_ofNat]
    rw [decodeWord_lui (fieldGrp_encodeU ..), fieldRd_encodeU, immU_encodeU _ _ _ h]
  · simp only [encode, BitVec.ofNat_eq_ofNat]
    rw [decodeWord_jalr (fieldGrp_encodeI ..), fieldRd_encodeI, fieldRs1_encodeI, immI_encodeI _ _ _ _ _ h]
  · simp only [encode, BitVec.ofNat_eq_ofNat]
    rw [decodeWord_lw (fieldGrp_encodeI ..) (fieldF3_encodeI ..), fieldRd_encodeI, fieldRs1_encodeI,
      immI_encodeI _ _ _ _ _ h]
  · simp only [encode, BitVec.ofNat_eq_ofNat]
    rw [decodeWord_lbu (fieldGrp_encodeI ..) (fieldF3_encodeI ..), fieldRd_encodeI, fieldRs1_encodeI,
      immI_encodeI _ _ _ _ _ h]
  · simp only [encode, BitVec.ofNat_eq_ofNat]
    rw [decodeWord_sb (fieldGrp_encodeS ..) (fieldF3_encodeS ..), fieldRs1_encodeS, fieldRs2_encodeS,
      immS_encodeS _ _ _ _ _ h]
  · simp only [encode, BitVec.ofNat_eq_ofNat]
    rw [decodeWord_sw (fieldGrp_encodeS ..) (fieldF3_encodeS ..), fieldRs1_encodeS, fieldRs2_encodeS,
      immS_encodeS _ _ _ _ _ h]
  · exact decodeWord_encode_ldx hm rd rs1 (wf_ldx hm rd rs1 imm ▸ h)
  · exact decodeWord_encode_stx hm rs1 rs2 (wf_stx hm rs1 rs2 imm ▸ h)
  · exact decodeWord_encode_undef hm rd rs1 (wf_undef hm rd rs1 imm ▸ h)

/-! ### Bytes -/

theorem decodeBytes_encodeBytes (i : Instr) (rest : List Byte) :
    decodeBytes (encodeBytes i ++ rest) = .ok (decodeWord (encode i), rest) := by
  simp only [encodeBytes, List.cons_append, List.nil_append, decodeBytes, wordOfBytes_byteOfWord]

/-- Settles O7: the word by the rows' formats, the bytes because they put the word together again. -/
theorem decodeEncodeRoundTrip : Obligations.DecodeEncodeRoundTrip := by
  intro i h
  refine ⟨decodeWord_encode i h, fun rest => ?_⟩
  rw [decodeBytes_encodeBytes, decodeWord_encode i h]

/-- Settles O12: the first four bytes of a list, if it has them, are one word, and every word decodes. -/
theorem shortBytesRejected : Obligations.ShortBytesRejected := by
  intro l
  match l with
  | [] => simp [decodeBytes]
  | [_] => simp [decodeBytes]
  | [_, _] => simp [decodeBytes]
  | [_, _, _] => simp [decodeBytes]
  | b0 :: b1 :: b2 :: b3 :: rest =>
    refine ⟨fun h => ?_, fun _ => ⟨_, rfl⟩⟩
    simp only [List.length_cons] at h
    omega

/-! ### Every word -/

/-- An I or S immediate is the sign extension of 12 bits, a U immediate ends in 12 zeros. -/
theorem wf_decodeWord (w : Word) : (decodeWord w).wf = true := by
  rcases group_cases (fieldGrp w) with h | h | h | h | h | h | h
  · by_cases h2 : fieldF3 w = 2#3
    · rw [decodeWord_lw h h2]; exact fits12_sext12 _
    · by_cases h4 : fieldF3 w = 4#3
      · rw [decodeWord_lbu h h4]; exact fits12_sext12 _
      · obtain ⟨mk, hm, he⟩ := decodeWord_ldx h h2 h4
        rw [he, wf_ldx hm]; exact fits12_sext12 _
  · rw [decodeWord_opimm h]; exact fits12_sext12 _
  · by_cases h0 : fieldF3 w = 0#3
    · rw [decodeWord_sb h h0]; exact fits12_sext12 _
    · by_cases h2 : fieldF3 w = 2#3
      · rw [decodeWord_sw h h2]; exact fits12_sext12 _
      · obtain ⟨mk, hm, he⟩ := decodeWord_stx h h0 h2
        rw [he, wf_stx hm]; exact fits12_sext12 _
  · rw [decodeWord_op h]; rfl
  · rw [decodeWord_lui h]; exact fitsUpper_immU w
  · rw [decodeWord_jalr h]; exact fits12_sext12 _
  · obtain ⟨mk, hm, he⟩ := decodeWord_undef h
    rw [he, wf_undef hm]; exact fits12_sext12 _

/-- Settles O8: every group's immediate is one that its immediate form can produce. -/
theorem decodedIsWellFormed : Obligations.DecodedIsWellFormed :=
  wf_decodeWord

/-! ### The step runs what the bytes at the pc decode to -/

/-- Settles O16: the four bytes are the lanes of the fetched word, and the step runs that word's
instruction. -/
theorem stepRunsDecodedInstruction : Obligations.StepRunsDecodedInstruction := by
  intro s i rest rest' h
  have hi : decodeWord s.fetch = i := congrArg Prod.fst (Except.ok.inj h)
  rw [step_eq, hi]

theorem fetch_withFetchWord (s : State) (w : Word) : (s.withFetchWord 32 w.toNat).fetch = w := by
  rw [State.withFetchWord, Nat.mod_eq_of_lt w.isLt, BitVec.ofNat_toNat, BitVec.setWidth_eq, fetch_memWrite4_pc]

theorem step_withFetchWord (s : State) (i : Instr) (h : i.wf = true) :
    step (s.withFetchWord 32 (encode i).toNat) = exec i (s.withFetchWord 32 (encode i).toNat) := by
  rw [step_eq, fetch_withFetchWord, decodeWord_encode i h]

/-- Settles O17: the placed word is the one fetched, and it decodes to the instruction. -/
theorem placedInstructionRuns : Obligations.PlacedInstructionRuns :=
  step_withFetchWord

end Sys2Proof.Machine
end

