-- ==== Sys2Proof/Proofs/CanonicalForm.lean ====
section
/-! The canonical form of a list of keys and values: equal contents are equal data (log 7). -/

namespace Sys2Proof.Machine

variable {α : Type} (d : α)

/-- A key that is not listed reads as the default. -/
theorem sparseGet_of_not_mem {l : List (Nat × α)} {a : Nat} (h : ∀ c ∈ l, c.1 ≠ a) : sparseGet d l a = d := by
  induction l with
  | nil => rfl
  | cons c rest ih =>
    rw [sparseGet, if_neg (h c List.mem_cons_self), ih fun e he => h e (List.mem_cons_of_mem c he)]

theorem sparseGet_cons_self (c : Nat × α) (rest : List (Nat × α)) : sparseGet d (c :: rest) c.1 = c.2 :=
  if_pos rfl

theorem sparseGet_cons_of_ne {c : Nat × α} {a : Nat} (h : c.1 ≠ a) (rest : List (Nat × α)) :
    sparseGet d (c :: rest) a = sparseGet d rest a :=
  if_neg h

variable [DecidableEq α]

/-- Keys rise, so a key at or below the head's is not listed in the tail. -/
theorem sparseGet_tail {c : Nat × α} {rest : List (Nat × α)} (h : sparseWf d (c :: rest) = true) {a : Nat}
    (ha : a ≤ c.1) : sparseGet d rest a = d := by
  obtain ⟨-, hlt, -⟩ := (sparseWf_cons d).mp h
  refine sparseGet_of_not_mem d fun e he => ?_
  have := hlt e he
  omega

/-- The head's key of one list cannot lie below the head's key of the other: it would read as listed in
the first and as unlisted in the second. -/
theorem headKey_le {c c' : Nat × α} {rest rest' : List (Nat × α)} (h : sparseWf d (c :: rest) = true)
    (h' : sparseWf d (c' :: rest') = true)
    (heq : ∀ n, sparseGet d (c :: rest) n = sparseGet d (c' :: rest') n) : c'.1 ≤ c.1 := by
  by_contra hlt
  have hlisted : sparseGet d (c :: rest) c.1 = c.2 := sparseGet_cons_self d c rest
  have hunlisted : sparseGet d (c' :: rest') c.1 = d := by
    rw [sparseGet_cons_of_ne d (by omega), sparseGet_tail d h' (by omega)]
  obtain ⟨hne, -, -⟩ := (sparseWf_cons d).mp h
  exact hne (by rw [← hlisted, heq, hunlisted])

/-- Lists in canonical form that read the same everywhere are the same list. -/
theorem sparse_ext {l l' : List (Nat × α)} (h : sparseWf d l = true) (h' : sparseWf d l' = true)
    (heq : ∀ n, sparseGet d l n = sparseGet d l' n) : l = l' := by
  induction l generalizing l' with
  | nil =>
    cases l' with
    | nil => rfl
    | cons c' rest' =>
      obtain ⟨hne, -, -⟩ := (sparseWf_cons d).mp h'
      exact absurd ((heq c'.1).trans (sparseGet_cons_self d c' rest')).symm hne
  | cons c rest ih =>
    obtain ⟨hne, -, hrest⟩ := (sparseWf_cons d).mp h
    cases l' with
    | nil => exact absurd ((sparseGet_cons_self d c rest).symm.trans (heq c.1)) hne
    | cons c' rest' =>
      obtain ⟨-, -, hrest'⟩ := (sparseWf_cons d).mp h'
      have hkey : c.1 = c'.1 :=
        Nat.le_antisymm (headKey_le d h' h fun n => (heq n).symm) (headKey_le d h h' heq)
      have hval : c.2 = c'.2 := by
        rw [← sparseGet_cons_self d c rest, heq, hkey, sparseGet_cons_self]
      have htails : ∀ n, sparseGet d rest n = sparseGet d rest' n := by
        intro n
        by_cases hn : c.1 = n
        · rw [sparseGet_tail d h (by omega), sparseGet_tail d h' (by omega)]
        · rw [← sparseGet_cons_of_ne d hn rest, heq, sparseGet_cons_of_ne d (by omega)]
      rw [Prod.ext hkey hval, ih hrest hrest' htails]

/-- Settles O5: memory and grid are both such lists. -/
theorem canonicalFormUnique : Obligations.CanonicalFormUnique :=
  ⟨fun _ _ => sparse_ext unlistedByte, fun _ _ => sparse_ext unlistedPixel⟩

end Sys2Proof.Machine
end

