-- ==== Sys2Proof/Proofs/BootLoad.lean ====
section
/-! Reset and the boot load (70_reset_and_hazards.md R190, R193, R194). -/

namespace Sys2Proof.Machine

/-! ### Reset -/

/-- Settles O1, by the three fields of the reset value. -/
theorem resetPcAndOutputs : Obligations.ResetPcAndOutputs :=
  ⟨rfl, rfl, rfl⟩

theorem reset_legal : State.reset.legal = true := by decide

/-- Settles O2: memory and grid are empty at reset, and the empty image asks for no word. -/
theorem resetIsLegalLaunch : Obligations.ResetIsLegalLaunch :=
  ⟨reset_legal, rfl, Nat.zero_le _, fun _ h => absurd h (Nat.not_lt_zero _), rfl, rfl, reset_legal⟩

/-! ### The boot load -/

theorem loadImage_of_le {s : State} {img : List Word} (h : img.length ≤ s.config.memWords) :
    s.loadImage img = some { s with mem := s.mem.writeWords 0 img } :=
  if_pos h

theorem loadImage_of_lt {s : State} {img : List Word} (h : s.config.memWords < img.length) : s.loadImage img = none :=
  if_neg (Nat.not_le.mpr h)

/-- A byte of the loaded image is its lane of the image's word. -/
theorem sparseGet_writeWords_image (m : Memory) (img : List Word) (n : Nat) (h : n / 4 < img.length) :
    sparseGet unlistedByte (m.writeWords 0 img) n = byteOfWord img[n / 4] (n % 4) := by
  rw [sparseGet_writeWords, dif_pos ⟨Nat.zero_le _, h⟩]
  rfl

theorem sparseGet_writeWords_past (m : Memory) (img : List Word) (n : Nat) (h : 4 * img.length ≤ n) :
    sparseGet unlistedByte (m.writeWords 0 img) n = sparseGet unlistedByte m n := by
  rw [sparseGet_writeWords, dif_neg]
  omega

/-- The four lanes of a loaded word, put together, are the image's word. -/
theorem readWord_writeWords_image (m : Memory) (img : List Word) (j : Nat) (h : j < img.length) :
    (m.writeWords 0 img).readWord j = img[j] := by
  have hlane : ∀ k < 4, sparseGet unlistedByte (m.writeWords 0 img) (4 * j + k) = byteOfWord img[j] k := by
    intro k hk
    have hdiv : (4 * j + k) / 4 = j := by omega
    rw [sparseGet_writeWords_image m img _ (by omega), show (4 * j + k) % 4 = k by omega]
    simp only [hdiv]
  have hlane0 : sparseGet unlistedByte (m.writeWords 0 img) (4 * j) = byteOfWord img[j] 0 := hlane 0 (by omega)
  rw [Memory.readWord, hlane0, hlane 1 (by omega), hlane 2 (by omega), hlane 3 (by omega), wordOfBytes_byteOfWord]

/-- Settles O6: the load writes general memory only, word after word from word 0 on. -/
theorem bootLoadPlacesImage : Obligations.BootLoadPlacesImage := by
  intro s img
  refine ⟨loadImage_of_lt, fun h => ⟨_, loadImage_of_le h, ?_, ?_, ?_, ?_⟩⟩
  · exact fun j hj => readWord_writeWords_image s.mem img j hj
  · exact fun i hi => sparseGet_writeWords_image s.mem img i hi
  · exact fun n hn => sparseGet_writeWords_past s.mem img n hn
  · exact ⟨fun _ => rfl, fun _ _ => rfl, rfl, rfl, rfl, rfl⟩

end Sys2Proof.Machine
end

