-- ==== Sys2Proof/Proofs/OpcodeTable.lean ====
section
/-! The opcode table: each word lies in one row, and the decoder answers that row's instruction
(30_encoding.md R71). -/

namespace Sys2Proof.Machine

/-! ### One row at most -/

/-- The patterns of two rows differ in a bit that both masks keep. -/
def rowsApart (r r' : OpcodeRow) : Prop := r.pattern &&& r'.mask ≠ r'.pattern &&& r.mask

/-- A word in both rows has the same bits under both masks. -/
theorem not_rowsApart_of_hits {r r' : OpcodeRow} {w : Word} (h : r.hits w = true) (h' : r'.hits w = true) :
    ¬ rowsApart r r' := by
  rw [OpcodeRow.hits, beq_iff_eq] at h h'
  rw [rowsApart, not_not, ← h, ← h', BitVec.and_assoc, BitVec.and_assoc, BitVec.and_comm r.mask]

theorem opcodeTable_pairwise_rowsApart : opcodeTable.Pairwise rowsApart := by
  unfold rowsApart
  decide

/-- Rows of the table that a word lies in are the same row. -/
theorem row_unique {r r' : OpcodeRow} (hr : r ∈ opcodeTable) (hr' : r' ∈ opcodeTable) {w : Word}
    (h : r.hits w = true) (h' : r'.hits w = true) : r' = r := by
  have : Std.Symm rowsApart := ⟨fun _ _ => Ne.symm⟩
  by_contra hne
  exact not_rowsApart_of_hits h' h (opcodeTable_pairwise_rowsApart.forall hr' hr hne)

/-! ### One row at least

The table and the decoder's choice of row look at the group, and in two groups at the selector; so the
words with every other bit zero stand for all. -/

/-- The groups whose rows the selector tells apart: Load and Store. -/
def selectorGroups : List (BitVec 5) := [0b00000, 0b01000]

/-- The word with the given selector and group and no other bit. -/
def rowWord (f3 : BitVec 3) (grp : BitVec 5) : Word := (f3 ++ 0#5 ++ grp ++ 0#2).setWidth 32

theorem fieldGrp_rowWord (f3 grp) : fieldGrp (rowWord f3 grp) = grp := by
  apply BitVec.eq_of_getLsbD_eq
  intro i hi
  simp only [fieldGrp, rowWord, BitVec.getLsbD_extractLsb', BitVec.getLsbD_setWidth, BitVec.getLsbD_append, hi]
  interval_cases i <;> simp

theorem fieldF3_rowWord (f3 grp) : fieldF3 (rowWord f3 grp) = f3 := by
  apply BitVec.eq_of_getLsbD_eq
  intro i hi
  simp only [fieldF3, rowWord, BitVec.getLsbD_extractLsb', BitVec.getLsbD_setWidth, BitVec.getLsbD_append, hi]
  interval_cases i <;> simp

/-- A row sees a word through its mask only. -/
theorem hits_congr {r : OpcodeRow} {w w' : Word} (h : w &&& r.mask = w' &&& r.mask) : r.hits w = r.hits w' := by
  rw [OpcodeRow.hits, OpcodeRow.hits, h]

theorem mnemonic_decodeWord_congr {w w' : Word} (hg : fieldGrp w = fieldGrp w')
    (hf : fieldGrp w ∈ selectorGroups → fieldF3 w = fieldF3 w') : (decodeWord w).mnemonic = (decodeWord w').mnemonic := by
  by_cases hs : fieldGrp w' ∈ selectorGroups
  · unfold decodeWord decodeLoad decodeStore
    rw [hg, hf (hg ▸ hs)]
    split
    case h_1 => split <;> rfl
    case h_9 => split <;> rfl
    all_goals rfl
  · have hload : (fieldGrp w').toNat ≠ 0 := fun h =>
      hs (by rw [BitVec.eq_of_toNat_eq (y := 0b00000#5) h]; decide)
    have hstore : (fieldGrp w').toNat ≠ 8 := fun h =>
      hs (by rw [BitVec.eq_of_toNat_eq (y := 0b01000#5) h]; decide)
    unfold decodeWord
    rw [hg]
    split
    case h_1 h => exact absurd h hload
    case h_9 h => exact absurd h hstore
    all_goals rfl

/-- The sixteen rows of the Load and the Store group. -/
theorem exists_row_of_selector : ∀ f3 : BitVec 3, ∀ grp ∈ selectorGroups, ∃ r ∈ loadRows ++ storeRows,
    r.mask = 0x707C ∧ r.hits (rowWord f3 grp) = true ∧ r.mnemonic = (decodeWord (rowWord f3 grp)).mnemonic := by
  decide

/-- The thirty rows that the group alone selects. -/
theorem exists_row_of_group : ∀ grp : BitVec 5, grp ∉ selectorGroups → ∃ r ∈ plainRows ++ undefRows,
    r.mask = 0x7C ∧ r.hits (rowWord 0 grp) = true ∧ r.mnemonic = (decodeWord (rowWord 0 grp)).mnemonic := by
  decide

theorem exists_row (w : Word) : ∃ r ∈ opcodeTable, r.hits w = true ∧ r.mnemonic = (decodeWord w).mnemonic := by
  by_cases hs : fieldGrp w ∈ selectorGroups
  · obtain ⟨r, hr, hmask, hhits, hname⟩ := exists_row_of_selector (fieldF3 w) (fieldGrp w) hs
    refine ⟨r, ?_, ?_, hname.trans (mnemonic_decodeWord_congr (fieldGrp_rowWord ..) fun _ => fieldF3_rowWord ..)⟩
    · simp only [opcodeTable, List.mem_append] at hr ⊢
      tauto
    · rw [← hhits]
      refine hits_congr ?_
      rw [hmask, BitVec.ofNat_eq_ofNat, and_selectorMask, and_selectorMask, fieldGrp_rowWord, fieldF3_rowWord]
  · obtain ⟨r, hr, hmask, hhits, hname⟩ := exists_row_of_group (fieldGrp w) hs
    refine ⟨r, ?_, ?_, hname.trans (mnemonic_decodeWord_congr (fieldGrp_rowWord ..) fun h => ?_)⟩
    · simp only [opcodeTable, List.mem_append] at hr ⊢
      tauto
    · rw [← hhits]
      refine hits_congr ?_
      rw [hmask, BitVec.ofNat_eq_ofNat, and_groupMask, and_groupMask, fieldGrp_rowWord]
    · rw [fieldGrp_rowWord] at h
      exact absurd h hs

/-- Settles O9: the word's group and selector give a row, and no two rows have a word in common. -/
theorem everyWordHitsItsOneRow : Obligations.EveryWordHitsItsOneRow := by
  refine ⟨rfl, fun w => ?_⟩
  obtain ⟨r, hr, hhits, hname⟩ := exists_row w
  exact ⟨r, hr, hhits, hname, fun r' hr' hhits' => row_unique hr hr' hhits hhits'⟩

end Sys2Proof.Machine
end

