-- ==== Sys2Proof/Proofs/IgnoredBits.lean ====
section
/-! Which bits of a word its category ignores (30_encoding.md R65, R70): two words that agree on the fields
their rows read do the same. -/

namespace Sys2Proof.Machine

/-! ### Fields under a mask -/

/-- Words that agree under a mask agree on every field the mask keeps. -/
theorem extractLsb'_eq_of_and_eq {w w' m : Word} (h : w &&& m = w' &&& m) (start len : Nat)
    (hm : m.extractLsb' start len = BitVec.allOnes len) : w.extractLsb' start len = w'.extractLsb' start len := by
  have := congrArg (BitVec.extractLsb' start len) h
  rwa [BitVec.extractLsb'_and, BitVec.extractLsb'_and, hm, BitVec.and_allOnes, BitVec.and_allOnes] at this

theorem immI_congr {w w' : Word} (h : w.extractLsb' 20 12 = w'.extractLsb' 20 12) : immI w = immI w' :=
  congrArg sext12 h

/-- The decoder reads no bit below bit 2 (D10). -/
theorem decodeWord_eq_of_and_eq {w w' : Word} (h : w &&& 0xFFFFFFFC = w' &&& 0xFFFFFFFC) : decodeWord w = decodeWord w' := by
  have hgrp : fieldGrp w = fieldGrp w' := extractLsb'_eq_of_and_eq h 2 5 rfl
  have hf3 : fieldF3 w = fieldF3 w' := extractLsb'_eq_of_and_eq h 12 3 rfl
  have hrd : fieldRd w = fieldRd w' := extractLsb'_eq_of_and_eq h 7 5 rfl
  have hrs1 : fieldRs1 w = fieldRs1 w' := extractLsb'_eq_of_and_eq h 15 5 rfl
  have hrs2 : fieldRs2 w = fieldRs2 w' := extractLsb'_eq_of_and_eq h 20 5 rfl
  have hI : immI w = immI w' := immI_congr (extractLsb'_eq_of_and_eq h 20 12 rfl)
  have hS : immS w = immS w' := by
    rw [immS, immS, extractLsb'_eq_of_and_eq h 25 7 rfl, extractLsb'_eq_of_and_eq h 7 5 rfl]
  have hU : immU w = immU w' := by
    rw [immU, immU, extractLsb'_eq_of_and_eq h 12 20 rfl]
  simp only [decodeWord, decodeLoad, decodeStore, hgrp, hf3, hrd, hrs1, hrs2, hI, hS, hU]

/-! ### Words of one category -/

/-- The fields an I-format row other than a load reads: none of the selector. -/
def sameOperandsI (w w' : Word) : Prop := fieldRd w = fieldRd w' ∧ fieldRs1 w = fieldRs1 w' ∧ immI w = immI w'

theorem sameOperandsI_of_and_eq {w w' m : Word} (h : w &&& m = w' &&& m) (hrd : m.extractLsb' 7 5 = BitVec.allOnes 5)
    (hrs1 : m.extractLsb' 15 5 = BitVec.allOnes 5) (himm : m.extractLsb' 20 12 = BitVec.allOnes 12) :
    sameOperandsI w w' :=
  ⟨extractLsb'_eq_of_and_eq h 7 5 hrd, extractLsb'_eq_of_and_eq h 15 5 hrs1,
    immI_congr (extractLsb'_eq_of_and_eq h 20 12 himm)⟩

theorem decodeWord_opimm_congr {w w' : Word} (hg : fieldGrp w = 0b00100#5) (hg' : fieldGrp w' = 0b00100#5)
    (h : sameOperandsI w w') : decodeWord w = decodeWord w' := by
  obtain ⟨hrd, hrs1, himm⟩ := h
  rw [decodeWord_opimm hg, decodeWord_opimm hg', hrd, hrs1, himm]

theorem decodeWord_jalr_congr {w w' : Word} (hg : fieldGrp w = 0b11001#5) (hg' : fieldGrp w' = 0b11001#5)
    (h : sameOperandsI w w') : decodeWord w = decodeWord w' := by
  obtain ⟨hrd, hrs1, himm⟩ := h
  rw [decodeWord_jalr hg, decodeWord_jalr hg', hrd, hrs1, himm]

theorem exec_decodeWord_undef {w : Word} (hg : recognisedGroup (fieldGrp w) = false) (s : State) :
    exec (decodeWord w) s =
      .next ((s.writeReg (fieldRd w) (s.readReg (fieldRs1 w) + immI w)).advance (some .decodeError)) := by
  obtain ⟨mk, hm, he⟩ := decodeWord_undef hg
  rw [he, exec_undef hm]

/-- Two unrecognised groups may decode to two rows; these mean the same (D8). -/
theorem exec_decodeWord_undef_congr {w w' : Word} (hg : recognisedGroup (fieldGrp w) = false)
    (hg' : recognisedGroup (fieldGrp w') = false) (h : sameOperandsI w w') (s : State) :
    exec (decodeWord w) s = exec (decodeWord w') s := by
  obtain ⟨hrd, hrs1, himm⟩ := h
  rw [exec_decodeWord_undef hg, exec_decodeWord_undef hg', hrd, hrs1, himm]

/-- Settles O10: each mask keeps the group, or both groups are unrecognised, and the fields that the rows
of that category read. -/
theorem ignoredBitsChangeNothing : Obligations.IgnoredBitsChangeNothing := by
  intro w w' s
  refine ⟨fun h => ?_, fun hg h => ?_, fun hg h => ?_, fun hg h => ?_, fun hg hg' h => ?_⟩
  · rw [decodeWord_eq_of_and_eq h]
  · have hg' : fieldGrp w' = 0b00100#5 := (extractLsb'_eq_of_and_eq h 2 5 rfl).symm.trans hg
    rw [decodeWord_opimm_congr hg hg' (sameOperandsI_of_and_eq h rfl rfl rfl)]
  · have hg' : fieldGrp w' = 0b01100#5 := (extractLsb'_eq_of_and_eq h 2 5 rfl).symm.trans hg
    have hrd : fieldRd w = fieldRd w' := extractLsb'_eq_of_and_eq h 7 5 rfl
    have hrs1 : fieldRs1 w = fieldRs1 w' := extractLsb'_eq_of_and_eq h 15 5 rfl
    have hrs2 : fieldRs2 w = fieldRs2 w' := extractLsb'_eq_of_and_eq h 20 5 rfl
    rw [decodeWord_op hg, decodeWord_op hg', hrd, hrs1, hrs2]
  · have hg' : fieldGrp w' = 0b11001#5 := (extractLsb'_eq_of_and_eq h 2 5 rfl).symm.trans hg
    rw [decodeWord_jalr_congr hg hg' (sameOperandsI_of_and_eq h rfl rfl rfl)]
  · exact exec_decodeWord_undef_congr hg hg' (sameOperandsI_of_and_eq h rfl rfl rfl) s

/-! ### Unrecognised groups as OPIMM (R65) -/

theorem recognisedGroup_eq_false_iff (g : BitVec 5) :
    recognisedGroup g = false ↔ g ∉ ([0b00000, 0b00100, 0b01000, 0b01100, 0b01101, 0b11001] : List (BitVec 5)) := by
  revert g; decide

/-- A field inside bits 31:7. -/
theorem extractLsb'_upper25 (w : Word) (start len : Nat) (h : start + len ≤ 25) :
    (w.extractLsb' 7 25).extractLsb' start len = w.extractLsb' (7 + start) len := by
  apply BitVec.eq_of_getLsbD_eq
  intro i hi
  have hin : start + i < 25 := by omega
  simp only [BitVec.getLsbD_extractLsb', hi, hin, decide_true, Bool.true_and, Nat.add_assoc]

theorem sameOperandsI_of_upper25 {w w' : Word} (h : w.extractLsb' 7 25 = w'.extractLsb' 7 25) : sameOperandsI w w' := by
  have hfield : ∀ start len, start + len ≤ 25 → w.extractLsb' (7 + start) len = w'.extractLsb' (7 + start) len := by
    intro start len hle
    rw [← extractLsb'_upper25 w _ _ hle, ← extractLsb'_upper25 w' _ _ hle, h]
  exact ⟨hfield 0 5 (by omega), hfield 8 5 (by omega), immI_congr (hfield 13 12 (by omega))⟩

/-- Settles O47: both words write the same sum to the same register and go on at `pc + 4`. -/
theorem undefWordRunsAsOpimm : Obligations.UndefWordRunsAsOpimm := by
  intro w w' s hg hg' h
  obtain ⟨hrd, hrs1, himm⟩ := sameOperandsI_of_upper25 h
  refine ⟨(s.writeReg (fieldRd w') (s.readReg (fieldRs1 w') + immI w')).advance none, ?_, ?_⟩
  · rw [decodeWord_opimm hg', exec_opimm]
  · rw [exec_decodeWord_undef ((recognisedGroup_eq_false_iff _).mpr hg), hrd, hrs1, himm]
    rfl

end Sys2Proof.Machine
end

