-- ==== Sys2Proof/Proofs/Assembler.lean ====
section
/-! The assembler (30_encoding.md R74, R75): its shift-and-or formulas, the two parts of a constant, the
pseudo-instructions, and the sample words of 95_test_vectors.md V8. -/

namespace Sys2Proof.Machine

/-! ### The formats as shifts and ors (R74)

A word is its operands, each shifted to its place, over the word of the same row with no operand. -/

theorem encodeI_eq_or (grp : BitVec 5) (f3 : BitVec 3) (rd rs1 : RegIdx) (imm : Word) :
    encodeI grp f3 rd rs1 imm = ((imm &&& 0xFFF#32) <<< 20) ||| (rs1.zeroExtend 32 <<< 15) |||
      (rd.zeroExtend 32 <<< 7) ||| encodeI grp f3 0 0 0 := by
  apply BitVec.eq_of_getLsbD_eq
  intro i hi
  simp only [encodeI, BitVec.getLsbD_append, BitVec.getLsbD_extractLsb', BitVec.getLsbD_or, BitVec.getLsbD_shiftLeft,
    BitVec.getLsbD_and, BitVec.zeroExtend, BitVec.getLsbD_setWidth]
  interval_cases i <;> simp

theorem encodeS_eq_or (grp : BitVec 5) (f3 : BitVec 3) (rs1 rs2 : RegIdx) (imm : Word) :
    encodeS grp f3 rs1 rs2 imm = (((imm >>> 5) &&& 0x7F#32) <<< 25) ||| (rs2.zeroExtend 32 <<< 20) |||
      (rs1.zeroExtend 32 <<< 15) ||| ((imm &&& 0x1F#32) <<< 7) ||| encodeS grp f3 0 0 0 := by
  apply BitVec.eq_of_getLsbD_eq
  intro i hi
  simp only [encodeS, BitVec.getLsbD_append, BitVec.getLsbD_extractLsb', BitVec.getLsbD_or, BitVec.getLsbD_shiftLeft,
    BitVec.getLsbD_ushiftRight, BitVec.getLsbD_and, BitVec.zeroExtend, BitVec.getLsbD_setWidth]
  interval_cases i <;> simp

theorem encodeU_eq_or (grp : BitVec 5) (rd : RegIdx) (imm : Word) :
    encodeU grp rd imm = (imm &&& 0xFFFFF000#32) ||| (rd.zeroExtend 32 <<< 7) ||| encodeU grp 0 0 := by
  apply BitVec.eq_of_getLsbD_eq
  intro i hi
  simp only [encodeU, BitVec.getLsbD_append, BitVec.getLsbD_extractLsb', BitVec.getLsbD_or, BitVec.getLsbD_shiftLeft,
    BitVec.getLsbD_and, BitVec.zeroExtend, BitVec.getLsbD_setWidth]
  interval_cases i <;> simp

theorem encodeR_eq_or (grp : BitVec 5) (rd rs1 rs2 : RegIdx) :
    encodeR grp rd rs1 rs2 = (rs2.zeroExtend 32 <<< 20) ||| (rs1.zeroExtend 32 <<< 15) ||| (rd.zeroExtend 32 <<< 7) |||
      encodeR grp 0 0 0 := by
  apply BitVec.eq_of_getLsbD_eq
  intro i hi
  simp only [encodeR, BitVec.getLsbD_append, BitVec.getLsbD_or, BitVec.getLsbD_shiftLeft, BitVec.zeroExtend,
    BitVec.getLsbD_setWidth]
  interval_cases i <;> simp

/-- Settles O13: the formulas of the formats, each row with its own word of no operand. -/
theorem assemblerEncodings : Obligations.AssemblerEncodings := by
  intro rd rs1 rs2 imm z iType sType
  refine ⟨encodeI_eq_or .., encodeR_eq_or .., ?_, ?_, encodeS_eq_or .., ?_, encodeU_eq_or .., encodeI_eq_or ..⟩
  · rw [BitVec.or_assoc iType]
    exact encodeI_eq_or ..
  · rw [BitVec.or_assoc iType]
    exact encodeI_eq_or ..
  · rw [BitVec.or_assoc sType]
    exact encodeS_eq_or ..

/-! ### A constant from two parts (R75) -/

/-- The low 12 bits of a difference depend on the low 12 bits only, and the two sides agree there. -/
theorem fitsUpper_sub_constLo (c : Word) : fitsUpper (c - constLo c) = true := by
  have hlow : (constLo c).extractLsb' 0 12 = c.extractLsb' 0 12 := low12_sext12 _
  rw [fitsUpper_iff]
  have hmod : (constLo c).toNat % 2 ^ 12 = c.toNat % 2 ^ 12 := by
    simpa using congrArg BitVec.toNat hlow
  apply BitVec.eq_of_toNat_eq
  simp only [BitVec.extractLsb'_toNat, BitVec.toNat_sub, Nat.shiftRight_zero]
  have := (constLo c).isLt
  simp only [BitVec.toNat_ofNat]
  omega

/-- Upper part and lower part add up, because the upper part is the whole difference. -/
theorem constHi_add_constLo (c : Word) : constHi c + constLo c = c := by
  have hhi : constHi c = c - constLo c := upper20_zero _ (fitsUpper_sub_constLo c)
  rw [hhi, BitVec.sub_add_cancel]

/-- Settles O14: the sum, and the two ranges of immediates. -/
theorem constantFromTwoParts : Obligations.ConstantFromTwoParts :=
  fun c _ => ⟨constHi_add_constLo c, fitsUpper_immU _, fits12_sext12 _⟩

/-! ### Pseudo-instructions (R75) -/

theorem exec_pseudoNop (s : State) : exec pseudoNop s = .next (s.advance none) := by
  rw [pseudoNop, exec_opimm, BitVec.ofNat_eq_ofNat, writeReg_zero]

/-- Settles O15: each is an OPIMM or a JALR with a zero operand, and zero is neutral for the sum. -/
theorem pseudoInstructionEffects : Obligations.PseudoInstructionEffects := by
  intro s
  refine ⟨by decide, exec_pseudoNop s, fun rd rs => ⟨_, exec_opimm .., ?_, ?_⟩, fun rd imm => ⟨_, exec_opimm .., ?_, ?_⟩,
    fun rs => ⟨_, exec_jalr .., ?_, ?_⟩⟩
  · rw [BitVec.ofNat_eq_ofNat, BitVec.add_zero]
    exact regSet_writeReg_finish s rd _ _ _ _
  · rw [advance_pc, writeReg_pc]
  · rw [BitVec.ofNat_eq_ofNat, readReg_zero, BitVec.zero_add]
    exact regSet_writeReg_finish s rd _ _ _ _
  · rw [advance_pc, writeReg_pc]
  · exact fun r => by rw [BitVec.ofNat_eq_ofNat, writeReg_zero, finish_readReg]
  · rw [finish_pc, BitVec.ofNat_eq_ofNat, BitVec.add_zero]

/-! ### Sample words -/

/-- Settles O11, by running the decoder on the twelve words. -/
theorem sampleWordsDecode : Obligations.SampleWordsDecode := by
  unfold Obligations.SampleWordsDecode
  decide

end Sys2Proof.Machine
end

