-- ==== Sys2Proof/Proofs/ReferenceCycle.lean ====
section
/-! The step against the whole-cycle reference of 40_cycle.md R102, and the report of each word
(60_exceptions.md R160). -/

namespace Sys2Proof.Machine

/-! ### The decoding context of each group (40_cycle.md R94, R95; 30_encoding.md R63 to R69) -/

theorem groupCategory_unrecognised {g : BitVec 5} (h : recognisedGroup g = false) : groupCategory g = none := by
  revert g; decide

theorem decodeContext_opimm {w : Word} (h : fieldGrp w = 0b00100#5) :
    decodeContext w = ⟨.opimm, fieldF3 w, fieldRs1 w, fieldRs2 w, fieldRd w, immI w, none⟩ := by
  simp [decodeContext, h, groupCategory, selectorOf, immediateOf]

theorem decodeContext_op {w : Word} (h : fieldGrp w = 0b01100#5) :
    decodeContext w = ⟨.op, fieldF3 w, fieldRs1 w, fieldRs2 w, fieldRd w, 0, some .immediateDecodeError⟩ := by
  simp [decodeContext, h, groupCategory, selectorOf, immediateOf]

theorem decodeContext_lui {w : Word} (h : fieldGrp w = 0b01101#5) :
    decodeContext w = ⟨.lui, 0, fieldRs1 w, fieldRs2 w, fieldRd w, immU w, none⟩ := by
  simp [decodeContext, h, groupCategory, selectorOf, immediateOf]

theorem decodeContext_jalr {w : Word} (h : fieldGrp w = 0b11001#5) :
    decodeContext w = ⟨.jalr, 0, fieldRs1 w, fieldRs2 w, fieldRd w, immI w, none⟩ := by
  simp [decodeContext, h, groupCategory, selectorOf, immediateOf]

theorem decodeContext_load {w : Word} (h : fieldGrp w = 0b00000#5) :
    decodeContext w = ⟨.load, fieldF3 w, fieldRs1 w, fieldRs2 w, fieldRd w, immI w, none⟩ := by
  simp [decodeContext, h, groupCategory, selectorOf, immediateOf]

theorem decodeContext_store {w : Word} (h : fieldGrp w = 0b01000#5) :
    decodeContext w = ⟨.store, fieldF3 w, fieldRs1 w, fieldRs2 w, fieldRd w, immS w, none⟩ := by
  simp [decodeContext, h, groupCategory, selectorOf, immediateOf]

/-- A decode failure goes on as OPIMM (R65). -/
theorem decodeContext_undef {w : Word} (h : recognisedGroup (fieldGrp w) = false) :
    decodeContext w = ⟨.opimm, 0, fieldRs1 w, fieldRs2 w, fieldRd w, immI w, some .decodeError⟩ := by
  simp [decodeContext, groupCategory_unrecognised h, selectorOf, immediateOf]

/-! ### The units after the decoder -/

/-- The byte a store hands to the memory access unit. -/
theorem lowByte_eq_setWidth (v : Word) : lowByte v = v.setWidth 8 := by
  rw [lowByte, ← setWidth_shift_lane, Nat.mul_zero, BitVec.ushiftRight_zero]

/-- Settles O19: the word's group fixes the decoding context; then each unit takes the branch that the
meaning of that row has built in. -/
theorem stepAgreesWithReferenceCycle : Obligations.StepAgreesWithReferenceCycle := by
  intro s
  rcases step_cases s with ⟨hg, ht⟩ | ⟨hg, ht⟩ | ⟨hg, ht⟩ | ⟨hg, ht⟩ | ⟨hg, hf, ht⟩ | ⟨hg, hf, ht⟩ | ⟨hg, hf2, hf4, ht⟩
    | ⟨hg, hf, ht⟩ | ⟨hg, hf, hw, ht⟩ | ⟨hg, hf, hw, ht⟩ | ⟨hg, hf0, hf2, ht⟩ | ⟨hg, ht⟩ <;>
    rw [ht]
  · simp [cycle, decodeContext_opimm hg, aluUnit, accessUnit, writeBackUnit, pcUnit, State.advance]
  · simp [cycle, decodeContext_op hg, aluUnit, accessUnit, writeBackUnit, pcUnit, State.advance]
  · simp [cycle, decodeContext_lui hg, accessUnit, writeBackUnit, pcUnit, State.advance]
  · simp [cycle, decodeContext_jalr hg, aluUnit, accessUnit, writeBackUnit, pcUnit]
  · simp [cycle, decodeContext_load hg, hf, aluUnit, accessUnit, writeBackUnit, pcUnit, State.advance]
  · simp [cycle, decodeContext_load hg, hf, aluUnit, accessUnit, writeBackUnit, pcUnit, State.advance]
  · simp [cycle, decodeContext_load hg, hf2, hf4, aluUnit, accessUnit, writeBackUnit, pcUnit, State.advance]
  · simp [cycle, decodeContext_store hg, hf, aluUnit, accessUnit, writeBackUnit, pcUnit, State.advance,
      lowByte_eq_setWidth]
  · simp [cycle, decodeContext_store hg, hf, hw, aluUnit, accessUnit, writeBackUnit, pcUnit, State.advanceFlush]
  · simp [cycle, decodeContext_store hg, hf, hw, aluUnit, accessUnit, writeBackUnit, pcUnit, State.advance]
  · simp [cycle, decodeContext_store hg, hf0, hf2, accessUnit, writeBackUnit, pcUnit, State.advance]
  · simp [cycle, decodeContext_undef hg, aluUnit, accessUnit, writeBackUnit, pcUnit, State.advance]

/-! ### Reports -/

/-- The report is the one the table gives for the fetched word. -/
theorem step_report (s : State) : ∃ t, step s = .next t ∧ t.report = wordReport s.fetch := by
  rcases step_cases s with ⟨hg, ht⟩ | ⟨hg, ht⟩ | ⟨hg, ht⟩ | ⟨hg, ht⟩ | ⟨hg, hf, ht⟩ | ⟨hg, hf, ht⟩ | ⟨hg, hf2, hf4, ht⟩
    | ⟨hg, hf, ht⟩ | ⟨hg, hf, hw, ht⟩ | ⟨hg, hf, hw, ht⟩ | ⟨hg, hf0, hf2, ht⟩ | ⟨hg, ht⟩ <;>
    refine ⟨_, ht, ?_⟩
  · simp [wordReport, hg, recognisedGroup]
  · simp [wordReport, hg, recognisedGroup]
  · simp [wordReport, hg, recognisedGroup]
  · simp [wordReport, hg, recognisedGroup]
  · simp [wordReport, hg, recognisedGroup, hf]
  · simp [wordReport, hg, recognisedGroup, hf]
  · simp [wordReport, hg, recognisedGroup, hf2, hf4]
  · simp [wordReport, hg, recognisedGroup, hf]
  · simp [wordReport, hg, recognisedGroup, hf]
  · simp [wordReport, hg, recognisedGroup, hf]
  · simp [wordReport, hg, recognisedGroup, hf0, hf2]
  · simp [wordReport, hg]

/-- The model's report table in the form of the statement. -/
theorem wordReport_eq (w : Word) : wordReport w =
    if fieldGrp w ∉ [0b00000, 0b00100, 0b01000, 0b01100, 0b01101, 0b11001] then some .decodeError
    else if fieldGrp w = 0b01100 then some .immediateDecodeError
    else if fieldGrp w = 0b00000 ∧ fieldF3 w ∉ [2, 4] then some .loadError
    else if fieldGrp w = 0b01000 ∧ fieldF3 w ∉ [0, 2] then some .saveError
    else none := by
  simp [wordReport, recognisedGroup, and_assoc]

/-- Settles O21: every cycle reports what the table says of the fetched word. -/
theorem reportByWord : Obligations.ReportByWord := by
  intro s
  obtain ⟨t, ht, hreport⟩ := step_report s
  exact ⟨t, ht, hreport.trans (wordReport_eq s.fetch)⟩

end Sys2Proof.Machine
end

