-- ==== Sys2Proof/Proofs/NonInterference.lean ====
section
/-! What cannot influence a cycle: the pixel grid (20_memory.md R45, 10_state.md R20), and a register that
the instruction does not use (10_state.md R14). -/

namespace Sys2Proof.Machine

/-! ### The state with another grid -/

def State.withGrid (s : State) (g : Grid) : State := { s with pixels := g }

@[simp] theorem withGrid_pc (s : State) (g) : (s.withGrid g).pc = s.pc := rfl
@[simp] theorem withGrid_readReg (s : State) (g i) : (s.withGrid g).readReg i = s.readReg i := rfl
@[simp] theorem withGrid_memRead4 (s : State) (g a) : (s.withGrid g).memRead4 a = s.memRead4 a := rfl
@[simp] theorem withGrid_memRead1 (s : State) (g a) : (s.withGrid g).memRead1 a = s.memRead1 a := rfl
@[simp] theorem withGrid_fetch (s : State) (g) : (s.withGrid g).fetch = s.fetch := rfl

theorem writeReg_withGrid (s : State) (g i v) : (s.withGrid g).writeReg i v = (s.writeReg i v).withGrid g := by
  unfold State.writeReg; split <;> rfl

/-- The two states differ in the grid and in what a Flush carries, and in nothing else: not in whether there
is a Flush. -/
def agreeButGrid (t t' : State) : Prop :=
  { t' with pixels := t.pixels, flush := t.flush } = t ∧ (t'.flush = none ↔ t.flush = none)

/-- A cycle that does not store a pixel ends the same from both states, up to the grid it was given. -/
theorem agreeButGrid_finish_withGrid (s : State) (g p r f) : agreeButGrid (s.finish p r f) ((s.withGrid g).finish p r f) :=
  ⟨rfl, Iff.rfl⟩

theorem agreeButGrid_writeReg_finish (s : State) (g i v p r f) :
    agreeButGrid ((s.writeReg i v).finish p r f) (((s.withGrid g).writeReg i v).finish p r f) := by
  rw [writeReg_withGrid]
  exact agreeButGrid_finish_withGrid ..

theorem agreeButGrid_writeReg_advance (s : State) (g i v r) :
    agreeButGrid ((s.writeReg i v).advance r) (((s.withGrid g).writeReg i v).advance r) := by
  rw [writeReg_withGrid]
  exact agreeButGrid_finish_withGrid ..

/-- Both pixel stores emit a Flush, each of its own grid. -/
theorem agreeButGrid_pixWrite (s : State) (g a v) :
    agreeButGrid (s.pixWrite a v).advanceFlush ((s.withGrid g).pixWrite a v).advanceFlush :=
  ⟨rfl, by simp⟩

/-- No operand, address or window test of any instruction reads the grid. -/
theorem exec_withGrid (i : Instr) (s : State) (g : Grid) :
    ∃ t t', exec i s = .next t ∧ exec i (s.withGrid g) = .next t' ∧ agreeButGrid t t' := by
  rcases instr_cases i with ⟨rd, rs1, imm, rfl⟩ | ⟨rd, rs1, rs2, rfl⟩ | ⟨rd, imm, rfl⟩ | ⟨rd, rs1, imm, rfl⟩
    | ⟨rd, rs1, imm, rfl⟩ | ⟨rd, rs1, imm, rfl⟩ | ⟨rs1, rs2, imm, rfl⟩ | ⟨rs1, rs2, imm, rfl⟩
    | ⟨mk, hm, rd, rs1, imm, rfl⟩ | ⟨mk, hm, rs1, rs2, imm, rfl⟩ | ⟨mk, hm, rd, rs1, imm, rfl⟩
  · exact ⟨_, _, exec_opimm .., exec_opimm .., agreeButGrid_writeReg_advance ..⟩
  · exact ⟨_, _, exec_op .., exec_op .., agreeButGrid_writeReg_advance ..⟩
  · exact ⟨_, _, exec_lui .., exec_lui .., agreeButGrid_writeReg_advance ..⟩
  · exact ⟨_, _, exec_jalr .., exec_jalr .., agreeButGrid_writeReg_finish ..⟩
  · exact ⟨_, _, exec_lw .., exec_lw .., agreeButGrid_writeReg_advance ..⟩
  · exact ⟨_, _, exec_lbu .., exec_lbu .., agreeButGrid_writeReg_advance ..⟩
  · exact ⟨_, _, exec_sb .., exec_sb .., rfl, Iff.rfl⟩
  · cases hw : inWindow (s.readReg rs1 + imm)
    · exact ⟨_, _, exec_sw_memory hw, exec_sw_memory hw, rfl, Iff.rfl⟩
    · exact ⟨_, _, exec_sw_window hw, exec_sw_window hw, agreeButGrid_pixWrite ..⟩
  · exact ⟨_, _, exec_ldx hm .., exec_ldx hm .., agreeButGrid_writeReg_advance ..⟩
  · exact ⟨_, _, exec_stx hm .., exec_stx hm .., agreeButGrid_finish_withGrid ..⟩
  · exact ⟨_, _, exec_undef hm .., exec_undef hm .., agreeButGrid_writeReg_advance ..⟩

/-- Settles O24: both states fetch the same word, and no instruction reads the grid. -/
theorem gridNeverObserved : Obligations.GridNeverObserved := by
  intro s t g ht
  obtain ⟨u, t', hu, ht', hagree⟩ := exec_withGrid (decodeWord s.fetch) s g
  have hut : u = t := Host.Outcome.next.inj (hu.symm.trans ht)
  exact ⟨t', ht', hut ▸ hagree⟩

/-! ### Registers an instruction does not use -/

theorem usedRegs_ldx {mk} (h : mk ∈ ldxRows) (rd rs1 imm) :
    usedRegs (mk rd rs1 imm) = [rs1] ∧ destReg (mk rd rs1 imm) = some rd := by
  simp only [ldxRows, List.mem_cons, List.not_mem_nil, or_false] at h
  rcases h with rfl | rfl | rfl | rfl | rfl | rfl <;> exact ⟨rfl, rfl⟩

theorem destReg_stx {mk} (h : mk ∈ stxRows) (rs1 rs2 imm) : destReg (mk rs1 rs2 imm) = none := by
  simp only [stxRows, List.mem_cons, List.not_mem_nil, or_false] at h
  rcases h with rfl | rfl | rfl | rfl | rfl | rfl <;> rfl

theorem usedRegs_undef {mk} (h : mk ∈ undefInstrs) (rd rs1 imm) :
    usedRegs (mk rd rs1 imm) = [rs1] ∧ destReg (mk rd rs1 imm) = some rd := by
  simp only [undefInstrs, List.mem_cons, List.not_mem_nil, or_false] at h
  rcases h with rfl | rfl | rfl | rfl | rfl | rfl | rfl | rfl | rfl | rfl | rfl | rfl | rfl
    | rfl | rfl | rfl | rfl | rfl | rfl | rfl | rfl | rfl | rfl | rfl | rfl | rfl <;> exact ⟨rfl, rfl⟩

theorem readReg_writeReg_of_ne (s : State) {r i : RegIdx} (h : r ≠ i) (v) : (s.writeReg r v).readReg i = s.readReg i := by
  rw [readReg_writeReg, if_neg]
  exact fun hi => h hi.1.symm

/-- A register result written after a change of `r` hides the change if it goes to `r`, and keeps it else. -/
theorem writeReg_writeReg_finish (s : State) (r rd : RegIdx) (v x p q f) :
    ((s.writeReg r v).writeReg rd x).finish p q f =
      if some rd = some r then (s.writeReg rd x).finish p q f else ((s.writeReg rd x).finish p q f).writeReg r v := by
  by_cases h : rd = r
  · rw [if_pos (congrArg some h), h, writeReg_writeReg_same]
  · rw [if_neg (fun hs => h (Option.some.inj hs)), writeReg_comm s (Ne.symm h), writeReg_finish]

theorem writeReg_writeReg_advance (s : State) (r rd : RegIdx) (v x q) :
    ((s.writeReg r v).writeReg rd x).advance q =
      if some rd = some r then (s.writeReg rd x).advance q else ((s.writeReg rd x).advance q).writeReg r v := by
  have h := writeReg_writeReg_finish s r rd v x (s.pc + 4) q none
  simpa only [State.advance, writeReg_pc] using h

/-- Another value in an unused register: the same result from the same operands, beside the change. -/
theorem exec_writeReg_of_not_mem_usedRegs (i : Instr) (s : State) {r : RegIdx} (v : Word) (hr : r ∉ usedRegs i) :
    ∃ t, exec i s = .next t ∧ exec i (s.writeReg r v) = .next (if destReg i = some r then t else t.writeReg r v) := by
  rcases instr_cases i with ⟨rd, rs1, imm, rfl⟩ | ⟨rd, rs1, rs2, rfl⟩ | ⟨rd, imm, rfl⟩ | ⟨rd, rs1, imm, rfl⟩
    | ⟨rd, rs1, imm, rfl⟩ | ⟨rd, rs1, imm, rfl⟩ | ⟨rs1, rs2, imm, rfl⟩ | ⟨rs1, rs2, imm, rfl⟩
    | ⟨mk, hm, rd, rs1, imm, rfl⟩ | ⟨mk, hm, rs1, rs2, imm, rfl⟩ | ⟨mk, hm, rd, rs1, imm, rfl⟩
  · have h1 : r ≠ rs1 := List.ne_of_not_mem_cons hr
    refine ⟨_, exec_opimm .., ?_⟩
    rw [exec_opimm, readReg_writeReg_of_ne s h1, writeReg_writeReg_advance, destReg]
  · have h1 : r ≠ rs1 := List.ne_of_not_mem_cons hr
    have h2 : r ≠ rs2 := List.ne_of_not_mem_cons (List.not_mem_of_not_mem_cons hr)
    refine ⟨_, exec_op .., ?_⟩
    rw [exec_op, readReg_writeReg_of_ne s h1, readReg_writeReg_of_ne s h2, writeReg_writeReg_advance, destReg]
  · refine ⟨_, exec_lui .., ?_⟩
    rw [exec_lui, writeReg_writeReg_advance, destReg]
  · have h1 : r ≠ rs1 := List.ne_of_not_mem_cons hr
    refine ⟨_, exec_jalr .., ?_⟩
    rw [exec_jalr, readReg_writeReg_of_ne s h1, writeReg_pc, writeReg_writeReg_finish, destReg]
  · have h1 : r ≠ rs1 := List.ne_of_not_mem_cons hr
    refine ⟨_, exec_lw .., ?_⟩
    rw [exec_lw, readReg_writeReg_of_ne s h1, writeReg_memRead4, writeReg_writeReg_advance, destReg]
  · have h1 : r ≠ rs1 := List.ne_of_not_mem_cons hr
    refine ⟨_, exec_lbu .., ?_⟩
    rw [exec_lbu, readReg_writeReg_of_ne s h1, writeReg_memRead1, writeReg_writeReg_advance, destReg]
  · have h1 : r ≠ rs1 := List.ne_of_not_mem_cons hr
    have h2 : r ≠ rs2 := List.ne_of_not_mem_cons (List.not_mem_of_not_mem_cons hr)
    refine ⟨_, exec_sb .., ?_⟩
    rw [exec_sb, readReg_writeReg_of_ne s h1, readReg_writeReg_of_ne s h2, writeReg_memWrite1, writeReg_advance]
    rfl
  · have h1 : (s.writeReg r v).readReg rs1 = s.readReg rs1 :=
      readReg_writeReg_of_ne s (List.ne_of_not_mem_cons hr) v
    have h2 : (s.writeReg r v).readReg rs2 = s.readReg rs2 :=
      readReg_writeReg_of_ne s (List.ne_of_not_mem_cons (List.not_mem_of_not_mem_cons hr)) v
    cases hw : inWindow (s.readReg rs1 + imm)
    · refine ⟨_, exec_sw_memory hw, ?_⟩
      rw [exec_sw_memory (h1 ▸ hw), h1, h2, writeReg_memWrite4, writeReg_advance]
      rfl
    · refine ⟨_, exec_sw_window hw, ?_⟩
      rw [exec_sw_window (h1 ▸ hw), h1, h2, writeReg_pixWrite, writeReg_advanceFlush]
      rfl
  · obtain ⟨hused, hdest⟩ := usedRegs_ldx hm rd rs1 imm
    have h1 : r ≠ rs1 := List.ne_of_not_mem_cons (hused ▸ hr)
    refine ⟨_, exec_ldx hm .., ?_⟩
    rw [exec_ldx hm, readReg_writeReg_of_ne s h1, writeReg_memRead4, writeReg_writeReg_advance, hdest]
  · refine ⟨_, exec_stx hm .., ?_⟩
    rw [exec_stx hm, writeReg_advance, destReg_stx hm]
    rfl
  · obtain ⟨hused, hdest⟩ := usedRegs_undef hm rd rs1 imm
    have h1 : r ≠ rs1 := List.ne_of_not_mem_cons (hused ▸ hr)
    refine ⟨_, exec_undef hm .., ?_⟩
    rw [exec_undef hm, readReg_writeReg_of_ne s h1, writeReg_writeReg_advance, hdest]

/-- Settles O25: only the used registers are read, and a later write of the destination hides the change. -/
theorem onlyUsedRegistersMatter : Obligations.OnlyUsedRegistersMatter := by
  intro i s t r v hr ht
  obtain ⟨u, hu, hchanged⟩ := exec_writeReg_of_not_mem_usedRegs i s v hr
  have hut : u = t := Host.Outcome.next.inj (hu.symm.trans ht)
  rw [hchanged, hut]

end Sys2Proof.Machine
end

