-- ==== Sys2Proof/Proofs/StepFrames.lean ====
section
/-! What one cycle can change: registers (10_state.md R12), the pc's low bits (R17), general memory and the
grid (20_memory.md R45), and the word the next cycle fetches (R52). -/

namespace Sys2Proof.Machine

/-! ### Registers -/

/-- Every end of a cycle follows at most one register write. -/
theorem exec_changes_one_register {i : Instr} {s t : State} (h : exec i s = .next t) :
    ∃ rd, ∀ r, r ≠ rd → t.readReg r = s.readReg r := by
  rcases exec_next_cases h with ⟨rd, v, r, -, rfl⟩ | ⟨rd, rs1, imm, -, rfl⟩ | ⟨-, rfl⟩ | ⟨rs1, rs2, imm, -, rfl⟩
    | ⟨rs1, rs2, imm, -, -, rfl⟩ | ⟨rs1, rs2, imm, -, -, rfl⟩
  · exact ⟨rd, fun i hi => by rw [advance_readReg, readReg_writeReg_of_ne s hi.symm]⟩
  · exact ⟨rd, fun i hi => by rw [finish_readReg, readReg_writeReg_of_ne s hi.symm]⟩
  · exact ⟨0, fun _ _ => advance_readReg ..⟩
  · exact ⟨0, fun _ _ => by rw [advance_readReg, memWrite1_readReg]⟩
  · exact ⟨0, fun _ _ => by rw [advance_readReg, memWrite4_readReg]⟩
  · exact ⟨0, fun _ _ => by rw [advanceFlush_readReg, pixWrite_readReg]⟩

/-- Settles O29: the laws of `readReg` after `writeReg`, and one register write at most in a cycle. -/
theorem registerWriteLaws : Obligations.RegisterWriteLaws := by
  refine ⟨writeReg_zero, fun s i v => readReg_zero _, fun s i j v hi => ?_, fun _ _ => exec_changes_one_register⟩
  rw [readReg_writeReg]
  by_cases hj : j = i
  · rw [if_pos ⟨hj, hj ▸ hi⟩, if_pos hj]
  · rw [if_neg (fun h => hj h.1), if_neg hj]

/-! ### The low bits of the pc -/

theorem low2_add_four (p : Word) : (p + 4).extractLsb' 0 2 = p.extractLsb' 0 2 := by
  apply BitVec.eq_of_toNat_eq
  simp only [BitVec.extractLsb'_toNat, BitVec.toNat_add, BitVec.ofNat_eq_ofNat, BitVec.toNat_ofNat, Nat.shiftRight_zero]
  omega

theorem low2_setWidth (b : BitVec 2) : (b.setWidth 32).extractLsb' 0 2 = b := by
  revert b; decide

theorem fits12_setWidth (b : BitVec 2) : fits12 (b.setWidth 32) = true := by
  revert b; decide

/-- A jump through x0 from reset: the target is the immediate. -/
theorem step_jump_from_reset (imm : Word) (h : fits12 imm = true) :
    ∃ s t, s.pc = 0 ∧ step s = .next t ∧ t.pc = imm := by
  have hstep := step_withFetchWord State.reset (.jalr 0 0 imm) h
  rw [exec_jalr] at hstep
  refine ⟨_, _, rfl, hstep, ?_⟩
  rw [finish_pc, BitVec.ofNat_eq_ofNat, readReg_zero, BitVec.zero_add]

/-- Settles O27: `pc + 4` keeps the low bits, and JALR clears none of its target's. -/
theorem pcAlignmentNotInvariant : Obligations.PcAlignmentNotInvariant := by
  refine ⟨rfl, fun s t hg ht => ?_, fun b => ?_, fun s t hg ht => ?_⟩
  · have hpc : t.pc = s.pc + 4 := (of_step_next (step_pc s) ht).trans (if_neg hg)
    rw [hpc, low2_add_four]
  · obtain ⟨s, t, hs, ht, hpc⟩ := step_jump_from_reset (b.setWidth 32) (fits12_setWidth b)
    exact ⟨s, t, by rw [hs]; rfl, ht, by rw [hpc, low2_setWidth]⟩
  · exact (of_step_next (step_pc s) ht).trans (if_pos hg)

/-! ### Stores -/

theorem not_inWindow_iff (a : Word) : inWindow a = false ↔ ¬ (0x20000000 ≤ a.toNat ∧ a.toNat < 0x20040000) := by
  rw [← inWindow_iff, Bool.not_eq_true]

/-- Settles O28: the next fetch reads the word just stored, because the capacity and so the masking of
`pc + 4` stay. -/
theorem storeSeenByNextFetch : Obligations.StoreSeenByNextFetch := by
  intro rs1 rs2 imm s t addr hout hidx ht
  rw [exec_sw_memory ((not_inWindow_iff _).mpr hout)] at ht
  obtain rfl := Host.Outcome.next.inj ht
  have hfetch : ((s.memWrite4 addr (s.readReg rs2)).advance none).fetch = s.readReg rs2 := by
    rw [State.fetch, State.memRead4, advance_wordAt, wordAt_memWrite4]
    exact if_pos hidx.symm
  rw [step_eq, hfetch]

/-- What O26 says of one step, in the model's own fields: which word changes a byte, and which a cell. -/
def changesByStore (s t : State) : Prop :=
  let addr := s.readReg (fieldRs1 s.fetch) + immS s.fetch
  (∀ n, t.byteAt n ≠ s.byteAt n → n / 4 = s.widx addr ∧ fieldGrp s.fetch = 0b01000#5 ∧
    (fieldF3 s.fetch = 0 ∨ (fieldF3 s.fetch = 2 ∧ inWindow addr = false))) ∧
  (∀ y x, t.pixelAt y x ≠ s.pixelAt y x → y = pixRow addr ∧ x = pixCol addr ∧
    fieldGrp s.fetch = 0b01000#5 ∧ fieldF3 s.fetch = 2 ∧ inWindow addr = true ∧ memKept s t)

theorem changesByStore_of_kept {s t : State} (hmem : memKept s t) (hgrid : gridKept s t) : changesByStore s t :=
  ⟨fun n h => absurd (hmem n) h, fun y x h => absurd (hgrid y x) h⟩

theorem changesByStore_writeReg_finish (s : State) (rd v p r f) : changesByStore s ((s.writeReg rd v).finish p r f) :=
  changesByStore_of_kept (memKept_writeReg_finish s rd v p r f) (gridKept_writeReg_finish s rd v p r f)

theorem changesByStore_sb {s : State} (hg : fieldGrp s.fetch = 0b01000#5) (hf : fieldF3 s.fetch = 0#3) (b r) :
    changesByStore s ((s.memWrite1 (s.readReg (fieldRs1 s.fetch) + immS s.fetch) b).advance r) := by
  refine ⟨fun n hn => ⟨?_, hg, .inl hf⟩, fun y x h => absurd rfl h⟩
  by_contra hne
  refine hn ?_
  rw [advance_byteAt, byteAt_memWrite1, if_neg]
  rintro rfl
  exact hne (widx_eq ..).symm

theorem changesByStore_sw_memory {s : State} (hg : fieldGrp s.fetch = 0b01000#5) (hf : fieldF3 s.fetch = 2#3)
    (hw : inWindow (s.readReg (fieldRs1 s.fetch) + immS s.fetch) = false) (v r) :
    changesByStore s ((s.memWrite4 (s.readReg (fieldRs1 s.fetch) + immS s.fetch) v).advance r) := by
  refine ⟨fun n hn => ⟨?_, hg, .inr ⟨hf, hw⟩⟩, fun y x h => absurd rfl h⟩
  by_contra hne
  exact hn (by rw [advance_byteAt, byteAt_memWrite4, if_neg hne])

theorem changesByStore_sw_window {s : State} (hg : fieldGrp s.fetch = 0b01000#5) (hf : fieldF3 s.fetch = 2#3)
    (hw : inWindow (s.readReg (fieldRs1 s.fetch) + immS s.fetch) = true) (v) :
    changesByStore s (s.pixWrite (s.readReg (fieldRs1 s.fetch) + immS s.fetch) v).advanceFlush := by
  refine ⟨fun n h => absurd rfl h, fun y x h => ?_⟩
  have hcell : y = pixRow (s.readReg (fieldRs1 s.fetch) + immS s.fetch) ∧
      x = pixCol (s.readReg (fieldRs1 s.fetch) + immS s.fetch) := by
    by_contra hne
    exact h (by rw [advanceFlush_pixelAt, pixelAt_pixWrite, if_neg hne])
  exact ⟨hcell.1, hcell.2, hg, hf, hw, fun _ => rfl⟩

theorem step_changesByStore (s : State) : ∃ t, step s = .next t ∧ changesByStore s t := by
  rcases step_cases s with ⟨-, ht⟩ | ⟨-, ht⟩ | ⟨-, ht⟩ | ⟨-, ht⟩ | ⟨-, -, ht⟩ | ⟨-, -, ht⟩ | ⟨-, -, -, ht⟩
    | ⟨hg, hf, ht⟩ | ⟨hg, hf, hw, ht⟩ | ⟨hg, hf, hw, ht⟩ | ⟨-, -, -, ht⟩ | ⟨-, ht⟩
  · exact ⟨_, ht, changesByStore_writeReg_finish ..⟩ -- OPIMM
  · exact ⟨_, ht, changesByStore_writeReg_finish ..⟩ -- OP
  · exact ⟨_, ht, changesByStore_writeReg_finish ..⟩ -- LUI
  · exact ⟨_, ht, changesByStore_writeReg_finish ..⟩ -- JALR
  · exact ⟨_, ht, changesByStore_writeReg_finish ..⟩ -- LW
  · exact ⟨_, ht, changesByStore_writeReg_finish ..⟩ -- LBU
  · exact ⟨_, ht, changesByStore_writeReg_finish ..⟩ -- LDX
  · exact ⟨_, ht, changesByStore_sb hg hf ..⟩
  · exact ⟨_, ht, changesByStore_sw_window hg hf hw ..⟩
  · exact ⟨_, ht, changesByStore_sw_memory hg hf hw ..⟩
  · exact ⟨_, ht, changesByStore_of_kept (advance_byteAt s _) (advance_pixelAt s _)⟩ -- STX
  · exact ⟨_, ht, changesByStore_writeReg_finish ..⟩ -- UNDEF

/-- Settles O26: only the three stores touch memory or grid, each at the store address. -/
theorem onlyStoresChangeMemory : Obligations.OnlyStoresChangeMemory := by
  intro s t ht w addr inwin
  have hwin : inWindow addr = true ↔ inwin := inWindow_iff addr
  rw [← hwin, Bool.not_eq_true]
  exact of_step_next (step_changesByStore s) ht

end Sys2Proof.Machine
end

