-- ==== Sys2Proof/Proofs/Addresses.lean ====
section
/-! Addresses: the wrap at the capacity (20_memory.md R34), the two low bits of a word access (R38), and the
pixel window with its cells (R43, R44). -/

namespace Sys2Proof.Machine

/-! ### The pixel window -/

theorem inWindow_iff_high14 (a : Word) : inWindow a = true ↔ a.extractLsb' 18 14 = 0b00100000000000#14 := by
  rw [inWindow_iff, ← BitVec.toNat_inj, BitVec.extractLsb'_toNat, BitVec.toNat_ofNat, Nat.shiftRight_eq_div_pow]
  have := a.isLt
  omega

/-- Inside the window, row and column are the digits to base 256 of the word index from the window's base. -/
theorem pixKey_of_inWindow {a : Word} (h : inWindow a = true) :
    pixKey (pixRow a) (pixCol a) = (a.toNat - 0x20000000) / 4 := by
  obtain ⟨hlo, hhi⟩ := (inWindow_iff a).mp h
  simp only [pixKey, pixRow, pixCol, BitVec.extractLsb'_toNat, Nat.shiftRight_eq_div_pow]
  omega

/-- The address of a cell. -/
def pixAddr (row col : BitVec 8) : Word := 0b00100000000000#14 ++ row ++ col ++ 0#2

theorem inWindow_pixAddr (row col) : inWindow (pixAddr row col) = true := by
  rw [inWindow_iff_high14, pixAddr, BitVec.extractLsb'_append_eq_of_le (by omega),
    BitVec.extractLsb'_append_eq_of_le (by omega), BitVec.extractLsb'_append_eq_left]

theorem pixRow_pixAddr (row col) : pixRow (pixAddr row col) = row := by
  rw [pixRow, pixAddr, BitVec.extractLsb'_append_eq_of_le (by omega), BitVec.extractLsb'_append_eq_of_le (by omega)]
  exact BitVec.extractLsb'_append_eq_right

theorem pixCol_pixAddr (row col) : pixCol (pixAddr row col) = col := by
  rw [pixCol, pixAddr, BitVec.extractLsb'_append_eq_of_le (by omega)]
  exact BitVec.extractLsb'_append_eq_right

/-- Settles O33: the bounds fix the top 14 bits, and the three fields of a cell's address give them back. -/
theorem windowCoversGridRowMajor : Obligations.WindowCoversGridRowMajor :=
  ⟨inWindow_iff_high14, fun _ => pixKey_of_inWindow,
    fun y x => ⟨pixAddr y x, inWindow_pixAddr y x, pixRow_pixAddr y x, pixCol_pixAddr y x⟩⟩

/-! ### Accesses that see an address through its word index and lane -/

theorem memRead4_congr {s : State} {a b : Word} (h : s.widx a = s.widx b) : s.memRead4 a = s.memRead4 b := by
  rw [State.memRead4, State.memRead4, h]

theorem memWrite4_congr {s : State} {a b : Word} (h : s.widx a = s.widx b) (v) : s.memWrite4 a v = s.memWrite4 b v := by
  rw [State.memWrite4, State.memWrite4, h]

theorem fetch_congr {s : State} {a b : Word} (h : s.widx a = s.widx b) :
    ({ s with pc := a } : State).fetch = ({ s with pc := b } : State).fetch :=
  memRead4_congr h

/-! ### The wrap at the capacity (R34) -/

theorem masked_ofNat_mod (s : State) (a : Word) : s.masked (BitVec.ofNat 32 (a.toNat % s.config.memBytes)) = s.masked a := by
  apply BitVec.eq_of_toNat_eq
  have hlt : a.toNat % s.config.memBytes < 2 ^ 32 := Nat.lt_of_le_of_lt (Nat.mod_le _ _) a.isLt
  rw [masked_toNat, masked_toNat, BitVec.toNat_ofNat, Nat.mod_eq_of_lt hlt, Nat.mod_mod]

/-- Settles O30: a masked address gives the word index and the lane, and so the access. At the reset
capacity of 2^16 bytes the window's base wraps to address 0, outside the window. -/
theorem accessWrapsAtCapacity : Obligations.AccessWrapsAtCapacity := by
  refine ⟨?_, State.reset, 0x20000000, by decide, by decide⟩
  intro s a v b m
  have hmask : s.masked a = s.masked m := (masked_ofNat_mod s a).symm
  have hidx : s.widx a = s.widx m := by rw [State.widx, State.widx, hmask]
  have hlane : lane a = lane m := by rw [lane_eq s, lane_eq s, hmask]
  refine ⟨memRead4_congr hidx, ?_, memWrite4_congr hidx v, ?_, fetch_congr hidx⟩
  · rw [memRead1_eq, memRead1_eq, hmask]
  · rw [State.memWrite1, State.memWrite1, hlane, memRead4_congr hidx, memWrite4_congr hidx]

/-! ### The low bits of a word access (R38, D4) -/

theorem ushiftRight_two_clear_low2 (a : Word) : (a &&& 0xFFFFFFFC) >>> 2 = a >>> 2 := by
  apply BitVec.eq_of_getLsbD_eq
  intro i hi
  rw [BitVec.getLsbD_ushiftRight, BitVec.getLsbD_ushiftRight, BitVec.getLsbD_and]
  interval_cases i <;> simp

theorem widx_clear_low2 (s : State) (a : Word) : s.widx (a &&& 0xFFFFFFFC) = s.widx a := by
  rw [State.widx, State.widx, State.masked, State.masked, BitVec.ushiftRight_and_distrib, ushiftRight_two_clear_low2,
    ← BitVec.ushiftRight_and_distrib]

/-- A field above bit 1 does not see the two low bits. -/
theorem extractLsb'_clear_low2 (a : Word) (start len : Nat)
    (h : (0xFFFFFFFC#32).extractLsb' start len = BitVec.allOnes len) :
    (a &&& 0xFFFFFFFC).extractLsb' start len = a.extractLsb' start len :=
  extractLsb'_eq_of_and_eq (by rw [BitVec.ofNat_eq_ofNat, BitVec.and_assoc, BitVec.and_self]) start len h

/-- Settles O31: the word index, the cell and the window test read no bit below bit 2. -/
theorem wordAccessIgnoresLowBits : Obligations.WordAccessIgnoresLowBits := by
  intro s a v al
  have hidx : s.widx a = s.widx al := (widx_clear_low2 s a).symm
  have hrow : pixRow al = pixRow a := extractLsb'_clear_low2 a 10 8 rfl
  have hcol : pixCol al = pixCol a := extractLsb'_clear_low2 a 2 8 rfl
  have hhigh : al.extractLsb' 18 14 = a.extractLsb' 18 14 := extractLsb'_clear_low2 a 18 14 rfl
  refine ⟨memRead4_congr hidx, memWrite4_congr hidx v, ?_, ?_, fetch_congr hidx⟩
  · rw [State.pixWrite, State.pixWrite, hrow, hcol]
  · rw [Bool.eq_iff_iff, inWindow_iff_high14, inWindow_iff_high14, hhigh]

end Sys2Proof.Machine
end

