-- ==== Sys2Proof/Proofs/AddResults.lean ====
section
/-! Results and frames of the rows that add: OP (41_arith.md R111) and the unrecognised groups
(44_decode_failure.md R150), and that no selector reaches the sum (40_cycle.md R98). -/

namespace Sys2Proof.Machine

/-! ### Sums (40_cycle.md R98) -/

/-- Settles O35: the mask fixes the group, and the row writes the sum of two registers. -/
theorem opAddsRegistersAndReports : Obligations.OpAddsRegistersAndReports := by
  refine ⟨fun w hw => ?_, fun rd rs1 rs2 s => ⟨_, exec_op .., writeReg_advance_frame ..⟩⟩
  have hgrp : fieldGrp w = 0b01100#5 := fieldGrp_of_mask hw
  exact decodeWord_op hgrp

/-- Settles O36: neither decoded instruction holds the selector, and each writes the sum of its operands. -/
theorem selectorNeverReachesAlu : Obligations.SelectorNeverReachesAlu := by
  refine fun w s => ⟨fun hg => ?_, fun hg => ?_⟩
  · rw [decodeWord_opimm hg]
    exact ⟨_, exec_opimm .., regSet_writeReg_finish s (fieldRd w) _ _ _ _⟩
  · rw [decodeWord_op hg]
    exact ⟨_, exec_op .., regSet_writeReg_finish s (fieldRd w) _ _ _ _⟩

/-! ### Unrecognised groups (R150) -/

/-- The 26 rows with their groups. -/
def undefMatches : List ((RegIdx → RegIdx → Word → Instr) × BitVec 5) :=
  undefInstrs.zip [0b00001, 0b00010, 0b00011, 0b00101, 0b00110, 0b00111, 0b01001, 0b01010, 0b01011, 0b01110,
      0b01111, 0b10000, 0b10001, 0b10010, 0b10011, 0b10100, 0b10101, 0b10110, 0b10111, 0b11000, 0b11010, 0b11011, 0b11100,
      0b11101, 0b11110, 0b11111]

theorem decodeWord_of_mem_undefMatches {p} (h : p ∈ undefMatches) {w : Word} (hg : fieldGrp w = p.2) :
    decodeWord w = p.1 (fieldRd w) (fieldRs1 w) (immI w) := by
  simp only [undefMatches, undefInstrs, List.zip_cons_cons, List.zip_nil_left, List.mem_cons,
    List.not_mem_nil, or_false] at h
  rcases h with rfl | rfl | rfl | rfl | rfl | rfl | rfl | rfl | rfl | rfl | rfl | rfl | rfl
    | rfl | rfl | rfl | rfl | rfl | rfl | rfl | rfl | rfl | rfl | rfl | rfl | rfl <;>
    simp [decodeWord, hg]

/-- Settles O46: the group picks the row, and every row writes the sum and reports. -/
theorem undefAddsAndReports : Obligations.UndefAddsAndReports :=
  ⟨fun _ hp _ hg => decodeWord_of_mem_undefMatches hp hg,
    fun _ hmk _ _ _ _ => ⟨_, exec_undef hmk .., writeReg_advance_frame ..⟩⟩

end Sys2Proof.Machine
end

