-- ==== Sys2Proof/Proofs/LoadStoreResults.lean ====
section
/-! Results and frames of the loads and the stores (42_load_store.md R120 to R126). -/

namespace Sys2Proof.Machine

/-! ### Loads (R120 to R122) -/

theorem widx_eq_mod_div (s : State) (a : Word) : s.widx a = a.toNat % s.config.memBytes / 4 := by
  rw [widx_eq, masked_toNat]

/-- A word read in the bytes of the containing word, lowest address last. -/
theorem memRead4_eq_append (s : State) (a : Word) :
    s.memRead4 a =
      let j := a.toNat % s.config.memBytes / 4
      s.byteAt (4 * j + 3) ++ s.byteAt (4 * j + 2) ++ s.byteAt (4 * j + 1) ++ s.byteAt (4 * j) := by
  rw [State.memRead4, widx_eq_mod_div]
  rfl

theorem memRead1_eq_mod (s : State) (a : Word) : s.memRead1 a = s.byteAt (a.toNat % s.config.memBytes) := by
  rw [memRead1_eq, masked_toNat]

/-- Settles O39: the mask fixes group and selector, and the row writes the containing word to `rd`. -/
theorem lwLoadsContainingWord : Obligations.LwLoadsContainingWord := by
  refine ⟨fun w hw => ?_, fun rd rs1 imm s => ⟨_, exec_lw .., ?_⟩⟩
  · obtain ⟨hgrp, hf⟩ := fields_of_selectorMask hw
    exact decodeWord_lw hgrp hf
  · rw [memRead4_eq_append]
    exact writeReg_advance_frame ..

/-- Settles O40: the mask fixes group and selector, and the row writes the addressed byte to `rd`. -/
theorem lbuLoadsZeroExtendedByte : Obligations.LbuLoadsZeroExtendedByte := by
  refine ⟨fun w hw => ?_, fun rd rs1 imm s => ⟨_, exec_lbu .., ?_⟩⟩
  · obtain ⟨hgrp, hf⟩ := fields_of_selectorMask hw
    exact decodeWord_lbu hgrp hf
  · rw [memRead1_eq_mod]
    exact writeReg_advance_frame ..

theorem decodeWord_load {w : Word} (h : fieldGrp w = 0b00000#5) : decodeWord w = decodeLoad w := by
  simp [decodeWord, h]

/-- The six rows with R122's match values, the selector in bits 14:12 of each. -/
def ldxMatches : List ((RegIdx → RegIdx → Word → Instr) × Word) :=
  ldxRows.zip [0x0000, 0x1000, 0x3000, 0x5000, 0x6000, 0x7000]

/-- A match value lies in the load group, and its selector picks the row that stands beside it. -/
theorem decodeWord_of_mem_ldxMatches {p} (h : p ∈ ldxMatches) {w : Word} (hg : fieldGrp w = p.2.extractLsb' 2 5)
    (hf : fieldF3 w = p.2.extractLsb' 12 3) : decodeWord w = p.1 (fieldRd w) (fieldRs1 w) (immI w) := by
  simp only [ldxMatches, ldxRows, List.zip_cons_cons, List.zip_nil_left, List.mem_cons, List.not_mem_nil, or_false] at h
  rcases h with rfl | rfl | rfl | rfl | rfl | rfl <;> rw [decodeWord_load hg] <;> simp [decodeLoad, hf]

/-- Settles O41: group and selector pick the row, and each row loads as LW does and reports. -/
theorem ldxLoadsWordAndReports : Obligations.LdxLoadsWordAndReports := by
  refine ⟨fun p hp w hw => ?_, fun mk hmk rd rs1 imm s => ⟨_, exec_ldx hmk .., ?_⟩⟩
  · obtain ⟨hgrp, hf⟩ := fields_of_selectorMask hw
    exact decodeWord_of_mem_ldxMatches hp hgrp hf
  · rw [memRead4_eq_append]
    exact writeReg_advance_frame ..

/-! ### Stores (R124 to R126) -/

/-- Settles O42: the mask fixes group and selector; a byte store changes the byte at the masked address and
no other. -/
theorem sbStoresOneByte : Obligations.SbStoresOneByte := by
  refine ⟨fun w hw => ?_, fun rs1 rs2 imm s => ⟨_, exec_sb .., fun n => ?_,
    fun _ => rfl, rfl, rfl, rfl, fun _ _ => rfl, rfl⟩⟩
  · obtain ⟨hgrp, hf⟩ := fields_of_selectorMask hw
    exact decodeWord_sb hgrp hf
  · rw [advance_byteAt, byteAt_memWrite1, masked_toNat]
    rfl

/-- Settles O43: the mask fixes group and selector; outside the window a word store changes the four bytes of
the containing word and no other. -/
theorem swStoresContainingWord : Obligations.SwStoresContainingWord := by
  refine ⟨fun w hw => ?_, fun rs1 rs2 imm s hout => ⟨_, exec_sw_memory ((not_inWindow_iff _).mpr hout), fun n => ?_,
    fun _ => rfl, rfl, rfl, rfl, fun _ _ => rfl, rfl⟩⟩
  · obtain ⟨hgrp, hf⟩ := fields_of_selectorMask hw
    exact decodeWord_sw hgrp hf
  · rw [advance_byteAt, byteAt_memWrite4, widx_eq_mod_div]
    rfl

/-- Settles O44: inside the window a word store changes its own cell, and the Flush is the grid after that. -/
theorem swStoresPixelAndFlushes : Obligations.SwStoresPixelAndFlushes := by
  intro rs1 rs2 imm s hlo hhi
  refine ⟨_, exec_sw_window ((inWindow_iff _).mpr ⟨hlo, hhi⟩), fun y x => ?_,
    rfl, fun _ => rfl, fun _ => rfl, rfl, rfl, rfl⟩
  rw [advanceFlush_pixelAt, pixelAt_pixWrite]
  rfl

end Sys2Proof.Machine
end

