-- ==== Sys2Proof/Proofs/ByteLanes.lean ====
section
/-! Byte and word accesses to one word of general memory see the same lanes (20_memory.md R36, R49). -/

namespace Sys2Proof.Machine

/-! ### The lane of an address -/

theorem low2_toNat_eq (s : State) (a : Word) : (a.extractLsb' 0 2).toNat = (s.masked a).toNat % 4 := by
  rw [masked_toNat, memBytes_eq, Nat.mod_mul_right_mod, BitVec.extractLsb'_toNat, Nat.shiftRight_zero]

theorem low2_cases (b : BitVec 2) : b = 0#2 ∨ b = 1#2 ∨ b = 2#2 ∨ b = 3#2 := by
  revert b; decide

/-- A byte store replaces the lane that the low bits of its address name. -/
theorem byteAt_memWrite1_lane (s : State) (a : Word) (b : Byte) {i : Nat} (_ : i < 4) :
    (s.memWrite1 a b).byteAt (4 * s.widx a + i) =
      if i = (a.extractLsb' 0 2).toNat then b else s.byteAt (4 * s.widx a + i) := by
  have hlane : 4 * s.widx a + i = (s.masked a).toNat ↔ i = (a.extractLsb' 0 2).toNat := by
    rw [widx_eq, low2_toNat_eq s]
    omega
  simp only [byteAt_memWrite1, hlane]

/-! ### Reads after writes -/

theorem memRead1_memWrite1 (s : State) (a : Word) (b : Byte) : (s.memWrite1 a b).memRead1 a = b := by
  rw [memRead1_eq, byteAt_memWrite1]
  exact if_pos rfl

/-- A byte read after a word store into its word. -/
theorem memRead1_memWrite4 {s : State} {a a' : Word} (h : s.widx a = s.widx a') (v : Word) :
    (s.memWrite4 a v).memRead1 a' = byteOfWord v (a'.extractLsb' 0 2).toNat := by
  have hword : (s.masked a').toNat / 4 = s.widx a := by rw [h, widx_eq]
  rw [memRead1_eq, byteAt_memWrite4, low2_toNat_eq s]
  exact if_pos hword

/-- A word read after a byte store into it: the lanes of the old word, one replaced. -/
theorem memRead4_memWrite1 (s : State) (a : Word) (b : Byte) : ∃ b0 b1 b2 b3 : Byte,
    s.memRead4 a = b3 ++ b2 ++ b1 ++ b0 ∧
    (s.memWrite1 a b).memRead4 a =
      if a.extractLsb' 0 2 = 0 then b3 ++ b2 ++ b1 ++ b else if a.extractLsb' 0 2 = 1 then b3 ++ b2 ++ b ++ b0
      else if a.extractLsb' 0 2 = 2 then b3 ++ b ++ b1 ++ b0 else b ++ b2 ++ b1 ++ b0 := by
  refine ⟨s.byteAt (4 * s.widx a + 0), s.byteAt (4 * s.widx a + 1), s.byteAt (4 * s.widx a + 2),
    s.byteAt (4 * s.widx a + 3), rfl, ?_⟩
  have hword : (s.memWrite1 a b).memRead4 a =
      (s.memWrite1 a b).byteAt (4 * s.widx a + 3) ++ (s.memWrite1 a b).byteAt (4 * s.widx a + 2) ++
        (s.memWrite1 a b).byteAt (4 * s.widx a + 1) ++ (s.memWrite1 a b).byteAt (4 * s.widx a + 0) := rfl
  rw [hword, byteAt_memWrite1_lane s a b (by omega), byteAt_memWrite1_lane s a b (by omega),
    byteAt_memWrite1_lane s a b (by omega), byteAt_memWrite1_lane s a b (by omega)]
  rcases low2_cases (a.extractLsb' 0 2) with h | h | h | h <;> rw [h] <;> rfl

/-! ### The instructions -/

/-- SB, then LBU with the same base and offset: the base register still holds the address. -/
theorem exec_sb_then_lbu (rd rs1 rs2 : RegIdx) (imm : Word) (s : State) : ∃ t u,
    exec (.sb rs1 rs2 imm) s = .next t ∧ exec (.lbu rd rs1 imm) t = .next u ∧
      regSet s u rd ((lowByte (s.readReg rs2)).zeroExtend 32) ∧
      ∀ n, n ≠ (s.masked (s.readReg rs1 + imm)).toNat → u.byteAt n = s.byteAt n := by
  refine ⟨_, _, exec_sb .., exec_lbu .., ?_, fun n hn => ?_⟩
  · have hload : ((s.memWrite1 (s.readReg rs1 + imm) (lowByte (s.readReg rs2))).advance none).memRead1
        (s.readReg rs1 + imm) = lowByte (s.readReg rs2) := memRead1_memWrite1 ..
    intro r
    rw [advance_readReg, readReg_writeReg, advance_readReg, memWrite1_readReg, advance_readReg, memWrite1_readReg, hload]
  · rw [advance_byteAt, writeReg_byteAt, advance_byteAt, byteAt_memWrite1, if_neg hn]

/-- Settles O32: each access is to the lane of its address, and a store replaces that lane only. -/
theorem byteRoundTripAndMixedWidths : Obligations.ByteRoundTripAndMixedWidths :=
  ⟨exec_sb_then_lbu, memRead4_memWrite1, fun _ _ _ v h => memRead1_memWrite4 h v⟩

end Sys2Proof.Machine
end
